-- ==== Sys2Proof/Word.lean ====
section
/-!
DEFINITION. The word types of the CHIP-8 core (00_scope.md R1: XLEN 8, ILEN and PCLEN 16, NREGS 16).
-/
namespace Sys2Proof

/-- A byte: a data register, a timer, a memory cell or a display cell (00_scope.md R1). -/
abbrev Byte := BitVec 8

/-- A 16-bit value: I, pc, a stack entry, FINFO or an instruction word (00_scope.md R1, R60). -/
abbrev Word := BitVec 16

/-- The index of a data register, 0..15: every value names a register (10_state.md R10, R12). -/
abbrev RegIx := Fin 16

end Sys2Proof
end

