-- ==== Sys2Proof/Syntax.lean ====
section
/-!
DEFINITION. The instructions of the core: one constructor per row of spec/opcode_table.json
(30_encoding.md R65). An address operand is the 16-bit argument the operation takes and masks
(30_encoding.md R64); the word carries 12 bits of it, which `Instr.wellFormed` asks for.
-/
namespace Sys2Proof

/-- The 30 instructions, in the table's order (30_encoding.md R65). -/
inductive Instr where
  /-- 00E0 CLS, R148. -/
  | cls
  /-- 00EE RET, R103. -/
  | ret
  /-- 1nnn JP addr, R100. -/
  | jp (addr : Word)
  /-- 2nnn CALL addr, R102. -/
  | call (addr : Word)
  /-- 3xkk SE Vx, byte, R104. -/
  | seByte (x : RegIx) (kk : Byte)
  /-- 4xkk SNE Vx, byte, R105. -/
  | sneByte (x : RegIx) (kk : Byte)
  /-- 5xy0 SE Vx, Vy, R106. -/
  | seReg (x y : RegIx)
  /-- 6xkk LD Vx, byte, R91. -/
  | ldByte (x : RegIx) (kk : Byte)
  /-- 7xkk ADD Vx, byte, R89. -/
  | addByte (x : RegIx) (kk : Byte)
  /-- 8xy0 LD Vx, Vy, R90. -/
  | ldReg (x y : RegIx)
  /-- 8xy1 OR Vx, Vy, R85. -/
  | or (x y : RegIx)
  /-- 8xy2 AND Vx, Vy, R84. -/
  | and (x y : RegIx)
  /-- 8xy3 XOR Vx, Vy, R86. -/
  | xor (x y : RegIx)
  /-- 8xy4 ADD Vx, Vy, R81. -/
  | addReg (x y : RegIx)
  /-- 8xy5 SUB Vx, Vy, R82. -/
  | sub (x y : RegIx)
  /-- 8xy6 SHR Vx, Vy, R88. -/
  | shr (x y : RegIx)
  /-- 8xy7 SUBN Vx, Vy, R83. -/
  | subn (x y : RegIx)
  /-- 8xyE SHL Vx, Vy, R87. -/
  | shl (x y : RegIx)
  /-- 9xy0 SNE Vx, Vy, R107. -/
  | sneReg (x y : RegIx)
  /-- Annn LD I, addr, R120. -/
  | ldI (addr : Word)
  /-- Bnnn JP V0, addr, R101. -/
  | jpV0 (addr : Word)
  /-- Cxkk RND Vx, byte, R145. -/
  | rnd (x : RegIx) (kk : Byte)
  /-- Fx07 LD Vx, DT, R142. -/
  | ldVxDt (x : RegIx)
  /-- Fx15 LD DT, Vx, R140. -/
  | ldDtVx (x : RegIx)
  /-- Fx18 LD ST, Vx, R141. -/
  | ldStVx (x : RegIx)
  /-- Fx1E ADD I, Vx, R121. -/
  | addI (x : RegIx)
  /-- Fx29 LD F, Vx, R122. -/
  | ldF (x : RegIx)
  /-- Fx33 LD B, Vx, R125. -/
  | ldB (x : RegIx)
  /-- Fx55 LD [I], Vx, R123: `x` is the LAST register stored. -/
  | storeRegs (x : RegIx)
  /-- Fx65 LD Vx, [I], R124: `x` is the LAST register loaded. -/
  | loadRegs (x : RegIx)
  deriving DecidableEq, Repr

end Sys2Proof
end

