-- ==== Sys2Proof/WellFormed.lean ====
section
/-!
DEFINITION. When an instruction can be written in an instruction word: its address operand has
12 bits (30_encoding.md R62, R63). Register indices and immediates cannot be out of range
(10_state.md R12): their types hold exactly what the fields hold.
-/
namespace Sys2Proof

/-- The address operand fits the 12-bit field `nnn` (30_encoding.md R62). -/
def Instr.wellFormed : Instr → Bool
  | .jp addr | .call addr | .ldI addr | .jpV0 addr => addr.toNat < 0x1000
  | .cls | .ret => true
  | .seByte _ _ | .sneByte _ _ | .ldByte _ _ | .addByte _ _ | .rnd _ _ => true
  | .seReg _ _ | .sneReg _ _ | .ldReg _ _ | .or _ _ | .and _ _ | .xor _ _ => true
  | .addReg _ _ | .sub _ _ | .shr _ _ | .subn _ _ | .shl _ _ => true
  | .ldVxDt _ | .ldDtVx _ | .ldStVx _ | .addI _ | .ldF _ | .ldB _ => true
  | .storeRegs _ | .loadRegs _ => true

end Sys2Proof
end

