-- ==== Sys2Proof/Decode.lean ====
section
/-!
DEFINITION. The instruction encoding: `decode` from any bytes, `encode` back, and the opcode map
of 30_encoding.md R65 as rows. The encoding is the conventional CHIP-8 one that the spec adopts by
its own decisions D2 (patterns) and D3 (byte order): log entry 7.
-/
namespace Sys2Proof

/-! ### Byte order and fields -/

/-- The word whose most significant byte is `hi` (20_memory.md R43: fetch is big-endian). -/
def wordOfBytes (hi lo : Byte) : Word := hi ++ lo

/-- The byte of a word that stands at the lower address (20_memory.md R43). -/
def highByte (w : Word) : Byte := w.extractLsb' 8 8

/-- The byte of a word that stands at the higher address; also the field `kk` (R43, R62). -/
def lowByte (w : Word) : Byte := w.extractLsb' 0 8

/-- Nibble `k` of a word, nibble 0 least significant: `op`, `X`, `Y` and `fn` are nibbles
3, 2, 1 and 0 (30_encoding.md R61, R62). -/
def nibble (w : Word) (k : Nat) : Fin 16 := (w.extractLsb' (4 * k) 4).toFin

/-- The field `nnn`, zero-extended to 16 bits (30_encoding.md R62, R63). -/
def fieldNnn (w : Word) : Word := (w.extractLsb' 0 12).setWidth 16

/-! ### Decoding -/

/-- An operation of conventional CHIP-8 that this core does not have (30_encoding.md R72). -/
inductive AbsentOp where
  /-- 0nnn, SYS addr. -/
  | sys
  /-- Dxyn, DRW Vx, Vy, n. -/
  | drw
  /-- Ex9E, SKP Vx. -/
  | skp
  /-- ExA1, SKNP Vx. -/
  | sknp
  /-- Fx0A, LD Vx, K. -/
  | ldKey
  deriving DecidableEq, Repr

/-- Why bytes are no instruction: the two classes of 30_encoding.md R70, and too few bytes. -/
inductive Reject where
  /-- Class (a): no CHIP-8 instruction at all. -/
  | unassigned (w : Word)
  /-- Class (b): a conventional instruction whose operation this core lacks. -/
  | absent (op : AbsentOp) (w : Word)
  /-- Fewer than the two bytes an instruction has (30_encoding.md R60). -/
  | truncated
  deriving DecidableEq, Repr

/-- The words of major opcode 0: CLS, RET, and the absent SYS (30_encoding.md R67, R72). -/
def decodeZero (w : Word) : Except Reject Instr :=
  if w = 0x00E0#16 then .ok .cls
  else if w = 0x00EE#16 then .ok .ret
  else .error (.absent .sys w)

/-- The words of major opcode 8, by `fn` (30_encoding.md R67). -/
def decodeAlu (w : Word) (x y : RegIx) : Except Reject Instr :=
  match (nibble w 0).val with
  | 0x0 => .ok (.ldReg x y)
  | 0x1 => .ok (.or x y)
  | 0x2 => .ok (.and x y)
  | 0x3 => .ok (.xor x y)
  | 0x4 => .ok (.addReg x y)
  | 0x5 => .ok (.sub x y)
  | 0x6 => .ok (.shr x y)
  | 0x7 => .ok (.subn x y)
  | 0xE => .ok (.shl x y)
  | _ => .error (.unassigned w)

/-- The words of major opcode 0xE, all of them illegal (30_encoding.md R67, R72). -/
def decodeKey (w : Word) : Except Reject Instr :=
  match (lowByte w).toNat with
  | 0x9E => .error (.absent .skp w)
  | 0xA1 => .error (.absent .sknp w)
  | _ => .error (.unassigned w)

/-- The words of major opcode 0xF, by the function byte (30_encoding.md R67, R72). -/
def decodeMisc (w : Word) (x : RegIx) : Except Reject Instr :=
  match (lowByte w).toNat with
  | 0x07 => .ok (.ldVxDt x)
  | 0x15 => .ok (.ldDtVx x)
  | 0x18 => .ok (.ldStVx x)
  | 0x1E => .ok (.addI x)
  | 0x29 => .ok (.ldF x)
  | 0x33 => .ok (.ldB x)
  | 0x55 => .ok (.storeRegs x)
  | 0x65 => .ok (.loadRegs x)
  | 0x0A => .error (.absent .ldKey w)
  | _ => .error (.unassigned w)

/-- `Decode(w)` of 30_encoding.md R67: total, a function of the word alone. -/
def decodeWord (w : Word) : Except Reject Instr :=
  match (nibble w 3).val with
  | 0x0 => decodeZero w
  | 0x1 => .ok (.jp (fieldNnn w))
  | 0x2 => .ok (.call (fieldNnn w))
  | 0x3 => .ok (.seByte (nibble w 2) (lowByte w))
  | 0x4 => .ok (.sneByte (nibble w 2) (lowByte w))
  | 0x5 => if nibble w 0 = 0 then .ok (.seReg (nibble w 2) (nibble w 1)) else .error (.unassigned w)
  | 0x6 => .ok (.ldByte (nibble w 2) (lowByte w))
  | 0x7 => .ok (.addByte (nibble w 2) (lowByte w))
  | 0x8 => decodeAlu w (nibble w 2) (nibble w 1)
  | 0x9 => if nibble w 0 = 0 then .ok (.sneReg (nibble w 2) (nibble w 1)) else .error (.unassigned w)
  | 0xA => .ok (.ldI (fieldNnn w))
  | 0xB => .ok (.jpV0 (fieldNnn w))
  | 0xC => .ok (.rnd (nibble w 2) (lowByte w))
  | 0xD => .error (.absent .drw w)
  | 0xE => decodeKey w
  | _ => decodeMisc w (nibble w 2)

/-- The instruction at the head of a list of bytes, and the bytes after it: every instruction is
two bytes, the most significant first (30_encoding.md R60). -/
def decode : List Byte → Except Reject (Instr × List Byte)
  | hi :: lo :: rest => (decodeWord (wordOfBytes hi lo)).map fun i => (i, rest)
  | _ => .error .truncated

/-! ### Encoding -/

/-- Four nibbles, most significant first (30_encoding.md R61). -/
def ofNibbles (a b c d : Fin 16) : Word :=
  BitVec.ofFin (w := 4) a ++ BitVec.ofFin (w := 4) b ++ BitVec.ofFin (w := 4) c ++ BitVec.ofFin (w := 4) d

/-- Format `A`: opcode and 12-bit address (30_encoding.md R61). -/
def formatA (op : Fin 16) (addr : Word) : Word :=
  BitVec.ofFin (w := 4) op ++ addr.extractLsb' 0 12

/-- Formats `XK` and `XF`: opcode, register and byte (30_encoding.md R61). -/
def formatXK (op : Fin 16) (x : RegIx) (kk : Byte) : Word :=
  BitVec.ofFin (w := 4) op ++ BitVec.ofFin (w := 4) x ++ kk

/-- The instruction's word (30_encoding.md R61, R65); of an address operand the 12 bits that the
field holds. -/
def encode : Instr → Word
  | .cls => 0x00E0#16
  | .ret => 0x00EE#16
  | .jp addr => formatA 0x1 addr
  | .call addr => formatA 0x2 addr
  | .seByte x kk => formatXK 0x3 x kk
  | .sneByte x kk => formatXK 0x4 x kk
  | .seReg x y => ofNibbles 0x5 x y 0x0
  | .ldByte x kk => formatXK 0x6 x kk
  | .addByte x kk => formatXK 0x7 x kk
  | .ldReg x y => ofNibbles 0x8 x y 0x0
  | .or x y => ofNibbles 0x8 x y 0x1
  | .and x y => ofNibbles 0x8 x y 0x2
  | .xor x y => ofNibbles 0x8 x y 0x3
  | .addReg x y => ofNibbles 0x8 x y 0x4
  | .sub x y => ofNibbles 0x8 x y 0x5
  | .shr x y => ofNibbles 0x8 x y 0x6
  | .subn x y => ofNibbles 0x8 x y 0x7
  | .shl x y => ofNibbles 0x8 x y 0xE
  | .sneReg x y => ofNibbles 0x9 x y 0x0
  | .ldI addr => formatA 0xA addr
  | .jpV0 addr => formatA 0xB addr
  | .rnd x kk => formatXK 0xC x kk
  | .ldVxDt x => formatXK 0xF x 0x07#8
  | .ldDtVx x => formatXK 0xF x 0x15#8
  | .ldStVx x => formatXK 0xF x 0x18#8
  | .addI x => formatXK 0xF x 0x1E#8
  | .ldF x => formatXK 0xF x 0x29#8
  | .ldB x => formatXK 0xF x 0x33#8
  | .storeRegs x => formatXK 0xF x 0x55#8
  | .loadRegs x => formatXK 0xF x 0x65#8

/-- The instruction's bytes in memory order (20_memory.md R43). -/
def encodeBytes (i : Instr) : List Byte := [highByte (encode i), lowByte (encode i)]

/-! ### The opcode map as rows -/

/-- One row of the opcode map: the words `w` with `w &&& mask = pattern` (30_encoding.md R65). -/
structure OpcodeRow where
  mnemonic : String
  mask : Word
  pattern : Word
  deriving DecidableEq, Repr

/-- The row an instruction belongs to (30_encoding.md R65); the mnemonic is opcode_table.json's. -/
def rowOf : Instr → OpcodeRow
  | .cls => ⟨"CLS", 0xFFFF#16, 0x00E0#16⟩
  | .ret => ⟨"RET", 0xFFFF#16, 0x00EE#16⟩
  | .jp _ => ⟨"JP_addr", 0xF000#16, 0x1000#16⟩
  | .call _ => ⟨"CALL_addr", 0xF000#16, 0x2000#16⟩
  | .seByte _ _ => ⟨"SE_Vx__byte", 0xF000#16, 0x3000#16⟩
  | .sneByte _ _ => ⟨"SNE_Vx__byte", 0xF000#16, 0x4000#16⟩
  | .seReg _ _ => ⟨"SE_Vx__Vy", 0xF00F#16, 0x5000#16⟩
  | .ldByte _ _ => ⟨"LD_Vx__byte", 0xF000#16, 0x6000#16⟩
  | .addByte _ _ => ⟨"ADD_Vx__byte", 0xF000#16, 0x7000#16⟩
  | .ldReg _ _ => ⟨"LD_Vx__Vy", 0xF00F#16, 0x8000#16⟩
  | .or _ _ => ⟨"OR_Vx__Vy", 0xF00F#16, 0x8001#16⟩
  | .and _ _ => ⟨"AND_Vx__Vy", 0xF00F#16, 0x8002#16⟩
  | .xor _ _ => ⟨"XOR_Vx__Vy", 0xF00F#16, 0x8003#16⟩
  | .addReg _ _ => ⟨"ADD_Vx__Vy", 0xF00F#16, 0x8004#16⟩
  | .sub _ _ => ⟨"SUB_Vx__Vy", 0xF00F#16, 0x8005#16⟩
  | .shr _ _ => ⟨"SHR_Vx__Vy", 0xF00F#16, 0x8006#16⟩
  | .subn _ _ => ⟨"SUBN_Vx__Vy", 0xF00F#16, 0x8007#16⟩
  | .shl _ _ => ⟨"SHL_Vx__Vy", 0xF00F#16, 0x800E#16⟩
  | .sneReg _ _ => ⟨"SNE_Vx__Vy", 0xF00F#16, 0x9000#16⟩
  | .ldI _ => ⟨"LD_I__addr", 0xF000#16, 0xA000#16⟩
  | .jpV0 _ => ⟨"JP_V0__addr", 0xF000#16, 0xB000#16⟩
  | .rnd _ _ => ⟨"RND_Vx__byte", 0xF000#16, 0xC000#16⟩
  | .ldVxDt _ => ⟨"LD_Vx__DT", 0xF0FF#16, 0xF007#16⟩
  | .ldDtVx _ => ⟨"LD_DT__Vx", 0xF0FF#16, 0xF015#16⟩
  | .ldStVx _ => ⟨"LD_ST__Vx", 0xF0FF#16, 0xF018#16⟩
  | .addI _ => ⟨"ADD_I__Vx", 0xF0FF#16, 0xF01E#16⟩
  | .ldF _ => ⟨"LD_F__Vx", 0xF0FF#16, 0xF029#16⟩
  | .ldB _ => ⟨"LD_B__Vx", 0xF0FF#16, 0xF033#16⟩
  | .storeRegs _ => ⟨"LD__I___Vx", 0xF0FF#16, 0xF055#16⟩
  | .loadRegs _ => ⟨"LD_Vx___I", 0xF0FF#16, 0xF065#16⟩

/-- A word matches a row (30_encoding.md R65: `(w & mask) = match`). -/
def OpcodeRow.accepts (r : OpcodeRow) (w : Word) : Bool := w &&& r.mask == r.pattern

/-- The 30 rows of 30_encoding.md R65, in its order. -/
def opcodeRows : List OpcodeRow :=
  [rowOf .cls, rowOf .ret, rowOf (.jp 0), rowOf (.call 0), rowOf (.seByte 0 0),
    rowOf (.sneByte 0 0), rowOf (.seReg 0 0), rowOf (.ldByte 0 0), rowOf (.addByte 0 0)]
  ++ [rowOf (.ldReg 0 0), rowOf (.or 0 0), rowOf (.and 0 0), rowOf (.xor 0 0), rowOf (.addReg 0 0),
    rowOf (.sub 0 0), rowOf (.shr 0 0), rowOf (.subn 0 0), rowOf (.shl 0 0), rowOf (.sneReg 0 0)]
  ++ [rowOf (.ldI 0), rowOf (.jpV0 0), rowOf (.rnd 0 0), rowOf (.ldVxDt 0), rowOf (.ldDtVx 0),
    rowOf (.ldStVx 0), rowOf (.addI 0), rowOf (.ldF 0), rowOf (.ldB 0), rowOf (.storeRegs 0),
    rowOf (.loadRegs 0)]

/-! ### The host's question -/

/-- The instruction the decoder reads from a table row's bits: `w` with the bits from `nbits` on
zero, laid out as the hardware stores a word (20_memory.md R43). -/
def decodeTableWord (nbits w : Nat) : Option Instr :=
  let word : Word := BitVec.ofNat 16 (w % 2 ^ nbits)
  match decode [highByte word, lowByte word] with
  | .ok (i, _) => some i
  | .error _ => none

end Sys2Proof
end

