-- ==== Sys2Proof/Config.lean ====
section
/-!
DEFINITION. What the spec fixes as parameters (00_scope.md R1), and the free value. Widths and
NREGS are the types of Word.lean. Of the rows R1 marks *parameter*: FONT is an argument
(`State.resetWith`, the field `State.font`), LOAD_ADDR is the argument of `HostStart` and of
`bootMoves`, the random source is `Config.rnd8`, and TICK_RATE_HZ is used by no rule.
-/
namespace Sys2Proof

/-- The `k`-th random draw, `rnd8` of the `k`-th execution of RND: any byte, under no law
(43_timers_random_display.md R146). No body: nothing can be proved about its value (log entry 4). -/
opaque Config.rnd8 : Nat → Byte

/-- `MEM_SIZE`, bytes of memory (00_scope.md R1). -/
abbrev Config.memSize : Nat := 4096

/-- `STACK_DEPTH`, entries of the call stack (00_scope.md R1). -/
abbrev Config.stackDepth : Nat := 16

/-- `DISP_COLS`, pixels of a display row (00_scope.md R1). -/
abbrev Config.dispCols : Nat := 64

/-- `DISP_ROWS`, rows of the display (00_scope.md R1). -/
abbrev Config.dispRows : Nat := 32

/-- `DISP_SIZE`, cells of the display buffer, one byte a pixel (00_scope.md R1, 10_state.md R25). -/
abbrev Config.dispSize : Nat := 2048

/-- `FONT_SIZE`, bytes of the font, 16 glyphs of 5 bytes (00_scope.md R1). -/
abbrev Config.fontSize : Nat := 80

/-- The parameter `FONT`: any 80 bytes (00_scope.md R1, 10_state.md R24). -/
abbrev Font := Vector Byte Config.fontSize

/-- `LOAD_ADDR`'s conventional value, a host convention (00_scope.md R1). -/
abbrev Config.loadAddr : Word := 0x200#16

end Sys2Proof
end

