-- ==== Sys2Proof/Machine/Font.lean ====
section
/-!
DEFINITION. The reset contents of memory: the 80-byte FONT at 0x000 and zero elsewhere
(10_state.md R22, R24, R30), for every FONT, and the default FONT (log entry 2).
-/
namespace Sys2Proof.Machine

/-- The bytes of the default FONT: 16 glyphs of 5 bytes, digit d at 5*d (10_state.md R22, R24). -/
def fontTable : List Byte :=
  [0xF0#8, 0x90#8, 0x90#8, 0x90#8, 0xF0#8] ++ [0x20#8, 0x60#8, 0x20#8, 0x20#8, 0x70#8] ++
  [0xF0#8, 0x10#8, 0xF0#8, 0x80#8, 0xF0#8] ++ [0xF0#8, 0x10#8, 0xF0#8, 0x10#8, 0xF0#8] ++
  [0x90#8, 0x90#8, 0xF0#8, 0x10#8, 0x10#8] ++ [0xF0#8, 0x80#8, 0xF0#8, 0x10#8, 0xF0#8] ++
  [0xF0#8, 0x80#8, 0xF0#8, 0x90#8, 0xF0#8] ++ [0xF0#8, 0x10#8, 0x20#8, 0x40#8, 0x40#8] ++
  [0xF0#8, 0x90#8, 0xF0#8, 0x90#8, 0xF0#8] ++ [0xF0#8, 0x90#8, 0xF0#8, 0x10#8, 0xF0#8] ++
  [0xF0#8, 0x90#8, 0xF0#8, 0x90#8, 0x90#8] ++ [0xE0#8, 0x90#8, 0xE0#8, 0x90#8, 0xE0#8] ++
  [0xF0#8, 0x80#8, 0x80#8, 0x80#8, 0xF0#8] ++ [0xE0#8, 0x90#8, 0x90#8, 0x90#8, 0xE0#8] ++
  [0xF0#8, 0x80#8, 0xF0#8, 0x80#8, 0xF0#8] ++ [0xF0#8, 0x80#8, 0xF0#8, 0x80#8, 0x80#8]

/-- The default of the parameter FONT (10_state.md R24, log entry 2). -/
def defaultFont : Font := ⟨⟨fontTable⟩, rfl⟩

/-- The byte at address `a` after reset, for the core whose parameter FONT is `font`: FONT at
FONT_BASE = 0x000, zero above (10_state.md R30). -/
def resetByte (font : Font) (a : Nat) : Byte := if h : a < Config.fontSize then font[a] else 0x00#8

end Sys2Proof.Machine
end

