-- ==== Sys2Proof/Machine/State.lean ====
section
/-!
DEFINITION. The state of the core as plain data, the moves of its three agents, and reset
(10_state.md; INVENTORY.md '## State').
-/
namespace Sys2Proof.Machine

/-- The value of the fault latch FAULT (10_state.md R27, 60_exceptions.md R160). -/
inductive Cause where
  /-- Code 0, no fault latched. -/
  | none
  /-- Code 1, by CALL with SP = 16 (R161). -/
  | stackOverflow
  /-- Code 2, by RET with SP = 0 (R162). -/
  | stackUnderflow
  /-- Code 3, by a word that decodes to nothing (R163). -/
  | illegalInstruction
  /-- Code 4, by a fetch or data access above 0xFFF (R164). -/
  | addressFault
  deriving DecidableEq, Repr

/-- What `raise E(info)` names: the cause and the information (60_exceptions.md R166). -/
structure Raised where
  cause : Cause
  info : Nat
  deriving DecidableEq, Repr

/-- Why a host port turns a request away (10_state.md R18, R32, R33, R34). It is an answer to the
host, never a fault of the core. -/
inductive PortError where
  /-- Top-of-stack read with an empty stack (R18). -/
  | stackUnderflow
  /-- HostStart or HostWriteMem while the dispatcher is not stopped after reset (R32, R33, R174). -/
  | notAccepted
  /-- An address or index outside what the port addresses (R33, R34, R35). -/
  | outOfRange
  deriving DecidableEq, Repr

/-- One move of one agent (00_scope.md R3): the dispatcher's step, the scheduler's tick, or a host
event that can change state. Host reads change nothing and are functions of the state
(Machine/HostPort.lean). -/
inductive Move where
  /-- The dispatcher takes a step (30_encoding.md R66). -/
  | dispatch
  /-- The tick input (10_state.md R36, 60_exceptions.md R176). -/
  | tick
  /-- HostReset (10_state.md R31). -/
  | hostReset
  /-- HostStart(entry) (10_state.md R32). -/
  | hostStart (entry : Word)
  /-- HostWriteMem(a, b) (10_state.md R33). -/
  | hostWriteMem (a : Word) (b : Byte)
  deriving DecidableEq, Repr

/-- Memory: the (address, byte) pairs that differ from the reset contents (`resetByte` of FONT),
addresses strictly rising (`Memory.wf` in Machine/Ops.lean). -/
abbrev Memory := List Host.Cell

/-- The display buffer: the (position, byte) pairs of the cells that are not zero, positions
strictly rising (10_state.md R25; all 2048 cells are zero after reset). -/
abbrev Display := List Host.Cell

/-- The whole state: 00_scope.md R4 and 10_state.md, the dispatcher's stopped or started bit
(10_state.md R31, R32), the parameter FONT, and three fields of the model's own (`agenda`, `cycle`,
`draws`). -/
structure State where
  /-- x[0..15] (10_state.md R10, R11). -/
  regs : Vector Byte 16
  /-- I (10_state.md R13). -/
  index : Word
  /-- The program counter (10_state.md R14). -/
  pc : Word
  /-- SP, the depth of the call stack, 0..16 (10_state.md R16). -/
  sp : Fin 17
  /-- STACK[0..15] (10_state.md R16). -/
  stack : Vector Word 16
  /-- DT (10_state.md R19). -/
  dt : Byte
  /-- ST (10_state.md R20). -/
  st : Byte
  /-- MEM (10_state.md R21). -/
  mem : Memory
  /-- DISP[0..2047], pixel (column c, row r) at 64*r + c (10_state.md R25). -/
  disp : Display
  /-- FAULT (10_state.md R27). -/
  fault : Cause
  /-- FINFO (10_state.md R27). -/
  finfo : Word
  /-- Whether HostStart has let the dispatcher run (10_state.md R31, R32). -/
  started : Bool
  /-- The core's parameter FONT, the 80 glyph bytes memory is loaded with at reset: an argument of
  the model that no move changes (00_scope.md R1, 10_state.md R24; log entry 2). -/
  font : Font
  /-- MODEL'S OWN: the moves the agents make next, oldest first (log entry 3). -/
  agenda : List Move
  /-- MODEL'S OWN: the moves the agents make after those of the agenda, over and over for ever;
  where it lists none, the dispatcher moves. No move changes it (log entry 3). -/
  cycle : List Move
  /-- MODEL'S OWN: how many random draws have been taken (log entry 4). -/
  draws : Nat
  deriving DecidableEq, Repr

/-- Nothing stops this machine with a model fault: each of the spec's four faults is an exception
whose entry the spec describes (60_exceptions.md R166) and is a next state with the latch set. The
type has no constructor, so no meaning can answer with one. -/
inductive Fault
  deriving DecidableEq, Repr

/-- Refusals of the model. -/
inductive Refusal where
  /-- Raised by no arm: it stands for an instruction without a meaning, and every instruction has
  one. Safe (the machine stops where the hardware goes on). -/
  | notModelled (mnemonic : String)
  deriving DecidableEq, Repr

/-- The state after reset of the core whose parameter FONT is `font` (10_state.md R30, R31): all
zero, the stack empty, memory at its reset contents (nothing listed), no fault, the dispatcher
stopped. The stack entries, to which the spec gives no value, are zero (log entry 1); no move is
listed and no draw has been taken (log entries 3 and 4). -/
def State.resetWith (font : Font) : State where
  regs := Vector.replicate 16 0#8
  index := 0x0000#16
  pc := 0x0000#16
  sp := 0
  stack := Vector.replicate 16 0x0000#16
  dt := 0x00#8
  st := 0x00#8
  mem := []
  disp := []
  fault := .none
  finfo := 0x0000#16
  started := false
  font := font
  agenda := []
  cycle := []
  draws := 0

/-- The state after reset of the core with the default FONT (10_state.md R24, log entry 2). -/
def State.reset : State := State.resetWith defaultFont

end Sys2Proof.Machine
end

