-- ==== Sys2Proof/Machine/Ops.lean ====
section
/-!
DEFINITION. The named operations over memory, registers, the program counter and the call stack,
and `raise`, the one way a fault is taken (20_memory.md, 10_state.md R17, 60_exceptions.md R166).
-/
namespace Sys2Proof.Machine

/-! ### Memory as data -/

/-- The byte at an address: the listed one, else the reset contents (20_memory.md R50). -/
def Memory.get (font : Font) : Memory → Nat → Byte
  | [], a => resetByte font a
  | (c, v) :: m, a => if a = c then v else Memory.get font m a

/-- A cell in front of `m`, left out when it holds what an unlisted address reads as. -/
def Memory.cons (font : Font) (a : Nat) (b : Byte) (m : Memory) : Memory :=
  if b = resetByte font a then m else (a, b) :: m

/-- One byte stored, the list kept in its canonical form (20_memory.md R42). -/
def Memory.put (font : Font) : Memory → Nat → Byte → Memory
  | [], a, b => Memory.cons font a b []
  | (c, v) :: m, a, b =>
    if a < c then Memory.cons font a b ((c, v) :: m)
    else if a = c then Memory.cons font a b m
    else (c, v) :: Memory.put font m a b

/-- The canonical form from address `lo` on: addresses strictly rising and below 4096, and no
entry equal to the reset contents. -/
def Memory.wfFrom (font : Font) (lo : Nat) : Memory → Bool
  | [] => true
  | (c, v) :: m =>
    decide (lo ≤ c) && decide (c < Config.memSize) && v != resetByte font c && Memory.wfFrom font (c + 1) m

/-- The canonical form of memory. -/
def Memory.wf (font : Font) (m : Memory) : Bool := Memory.wfFrom font 0 m

/-- Bytes stored at rising addresses from `a` (20_memory.md R46). -/
def Memory.putBytes (font : Font) : Memory → Nat → List Byte → Memory
  | m, _, [] => m
  | m, a, b :: bs => Memory.putBytes font (m.put font a b) (a + 1) bs

/-- The display cell at a position: the listed one, else zero (10_state.md R25). -/
def Display.get : Display → Nat → Byte
  | [], _ => 0x00#8
  | (c, v) :: d, k => if k = c then v else Display.get d k

/-- Every cell of the display buffer zero (43_timers_random_display.md R148). -/
def Display.blank : Display := []

/-! ### The memory of a state -/

/-- `MEM[a]` (00_scope.md section 5). -/
def State.byte (s : State) (a : Nat) : Byte := s.mem.get s.font a

/-- Bytes stored at rising addresses from `a`, nothing else changed (20_memory.md R46). -/
def State.storeBytes (s : State) (a : Nat) (bs : List Byte) : State :=
  { s with mem := s.mem.putBytes s.font a bs }

/-! ### The access primitives and their fault -/

/-- `MemRead(addr, 1)` (20_memory.md R41). -/
def memRead (s : State) (addr : Nat) : Except Raised Byte :=
  if addr > 0xFFF then .error ⟨.addressFault, addr⟩ else .ok (s.byte addr)

/-- `MemRead(addr, 2)`, the byte at `addr` most significant (20_memory.md R41). -/
def memReadWord (s : State) (addr : Nat) : Except Raised Word :=
  match memRead s addr with
  | .error e => .error e
  | .ok hi =>
    match memRead s (addr + 1) with
    | .error e => .error e
    | .ok lo => .ok (wordOfBytes hi lo)

/-- `MemWrite(addr, 1, v)` (20_memory.md R42). -/
def memWrite (s : State) (addr : Nat) (v : Byte) : Except Raised State :=
  if addr > 0xFFF then .error ⟨.addressFault, addr⟩ else .ok (s.storeBytes addr [v])

/-- The whole-range check of a multi-byte instruction, before any access: `count` bytes from
`base`; the lowest offending address is raised (20_memory.md R53, 42_memory_index.md R123). -/
def checkRange (base count : Nat) : Except Raised Unit :=
  if base + (count - 1) > 0xFFF then .error ⟨.addressFault, max base 0x1000⟩ else .ok ()

/-! ### Registers and the program counter -/

/-- Read of data register `i` (00_scope.md section 5). -/
def State.reg (s : State) (i : RegIx) : Byte := s.regs[i]

/-- Write of data register `i` (00_scope.md section 5). -/
def State.setReg (s : State) (i : RegIx) (v : Byte) : State := { s with regs := s.regs.set i v }

/-- The flag register 0xF (10_state.md R11). -/
def flagReg : RegIx := 0xF

/-- The two writes of a flag-writing instruction: the result to x[X] first, the flag to x[0xF]
second (40_register_arithmetic.md R80 law 2). -/
def State.setResultFlag (s : State) (x : RegIx) (result flag : Byte) : State :=
  (s.setReg x result).setReg flagReg flag

/-- `npc`, the address of the instruction after this one (00_scope.md section 5). -/
def State.npc (s : State) : Word := s.pc + 2#16

/-- `pc <- npc` (10_state.md R14). -/
def State.advance (s : State) : State := { s with pc := s.npc }

/-- `pc <- (npc + 2) mod 2^16` when the predicate holds, else `pc <- npc` (10_state.md R14). -/
def State.skipIf (s : State) (p : Bool) : State :=
  if p then { s with pc := s.npc + 2#16 } else s.advance

/-- `pc <- target` (00_scope.md section 5). -/
def State.jump (s : State) (target : Word) : State := { s with pc := target }

/-! ### The call stack -/

/-- `Push(v)` (10_state.md R17); the overflow's information is the value that could not be pushed. -/
def State.push (s : State) (v : Word) : Except Raised State :=
  if h : s.sp.val < 16 then
    .ok { s with stack := s.stack.set s.sp.val v h, sp := ⟨s.sp.val + 1, by omega⟩ }
  else .error ⟨.stackOverflow, v.toNat⟩

/-- `Pop()` (10_state.md R17): the former top and the state with SP lowered; the entry stays. -/
def State.pop (s : State) : Except Raised (Word × State) :=
  if h : 0 < s.sp.val then
    .ok (s.stack[s.sp.val - 1], { s with sp := ⟨s.sp.val - 1, by omega⟩ })
  else .error ⟨.stackUnderflow, 0⟩

/-! ### Taking a fault -/

/-- `raise E(info)`: FAULT and FINFO are set and nothing else changes, pc included; the dispatcher
is thereby halted (60_exceptions.md R166). No instruction returns from it: the only exit is
HostReset (R169), `State.hostReset` in Machine/HostPort.lean. -/
def State.raise (s : State) (e : Raised) : State :=
  { s with fault := e.cause, finfo := BitVec.ofNat 16 e.info }

/-- An instruction's end: the state it made, or the fault it raised, taken in the state before it,
whose writes are all discarded (60_exceptions.md R166). -/
def settle (s : State) : Except Raised State → Host.Outcome State Fault Refusal
  | .ok t => .next t
  | .error e => .next (s.raise e)

end Sys2Proof.Machine
end

