-- ==== Sys2Proof/Machine/Flags.lean ====
section
/-!
DEFINITION. The results and flags of the five flag-writing instructions. The only flag is the byte
0x00 or 0x01 they write to x[0xF] (10_state.md R29, 40_register_arithmetic.md R80).
-/
namespace Sys2Proof.Machine

/-- A flag as a whole byte (40_register_arithmetic.md R80 law 6). -/
def flagByte (b : Bool) : Byte := if b then 0x01#8 else 0x00#8

/-- The carry of ADD: 1 if the 9-bit sum exceeds 255 (R81). -/
def carryFlag (a b : Byte) : Byte := flagByte (decide (a.toNat + b.toNat > 255))

/-- The flag of `minuend - subtrahend`: 0 if it borrows, 1 if NOT (R82, R83). -/
def noBorrowFlag (minuend subtrahend : Byte) : Byte := flagByte (!decide (subtrahend > minuend))

/-- The flag of SHL: bit 7 of the source (R87). -/
def shiftLeftFlag (b : Byte) : Byte := flagByte (b.getLsbD 7)

/-- The flag of SHR: bit 0 of the source (R88). -/
def shiftRightFlag (b : Byte) : Byte := flagByte (b.getLsbD 0)

end Sys2Proof.Machine
end

