-- ==== Sys2Proof/Machine/Operands.lean ====
section
/-!
DEFINITION. The operand forms: masked addresses, the address formed with register 0, the bytes an
instruction reaches through I, decimal digits, and glyph addresses (30_encoding.md R63, R64;
42_memory_index.md R126).
-/
namespace Sys2Proof.Machine

/-- Address normalization: the low 12 bits (30_encoding.md R64). -/
def maskAddr (addr : Word) : Word := addr &&& 0x0FFF#16

/-- The target of JP V0: the masked operand plus x[0], the sum not masked (41_control_flow.md R101). -/
def jumpV0Target (s : State) (addr : Word) : Word := maskAddr addr + (s.reg 0).setWidth 16

/-- The address of the first byte an instruction reaches through I, which is not masked on use
(42_memory_index.md R126, 20_memory.md R56). -/
def dataBase (s : State) : Nat := s.index.toNat

/-- How many bytes a bulk transfer whose last register is `x` moves (42_memory_index.md R123). -/
def bulkCount (x : RegIx) : Nat := x.val + 1

/-- The values of registers 0..x, register 0 first (42_memory_index.md R123). -/
def bulkValues (s : State) (x : RegIx) : List Byte := s.regs.toList.take (bulkCount x)

/-- The register file with registers 0..x taken from memory at `base`, register 0 from the lowest
address, the others kept (42_memory_index.md R124). -/
def bulkLoaded (s : State) (x : RegIx) (base : Nat) : Vector Byte 16 :=
  Vector.ofFn fun i : RegIx => if i ≤ x then s.byte (base + i.val) else s.reg i

/-- The three decimal digits of a byte, hundreds first (42_memory_index.md R125). -/
def decimalDigits (v : Byte) : List Byte := [v / 100#8, (v / 10#8) % 10#8, v % 10#8]

/-- The address of the glyph of a digit, five bytes a glyph from address 0, of the whole byte
(42_memory_index.md R122). -/
def glyphAddr (v : Byte) : Word := maskAddr (v.setWidth 16 * 5#16)

end Sys2Proof.Machine
end

