-- ==== Sys2Proof/Machine/Arithmetic.lean ====
section
/-!
DEFINITION. The ALU instructions (40_register_arithmetic.md). Operands are read from the state before the
instruction, the result and the flag computed from them alone (R80 law 1).
-/
namespace Sys2Proof.Machine

/-- ADD Vx, Vy (R81): the sum modulo 256, the flag its carry. -/
def execAddReg (x y : RegIx) (s : State) : Host.Outcome State Fault Refusal :=
  .next (s.setResultFlag x (s.reg x + s.reg y) (carryFlag (s.reg x) (s.reg y))).advance

/-- SUB Vx, Vy (R82): x[X] - x[Y] modulo 256, the flag NOT its borrow. -/
def execSub (x y : RegIx) (s : State) : Host.Outcome State Fault Refusal :=
  .next (s.setResultFlag x (s.reg x - s.reg y) (noBorrowFlag (s.reg x) (s.reg y))).advance

/-- SUBN Vx, Vy (R83): x[Y] - x[X] modulo 256, the flag NOT its borrow. -/
def execSubn (x y : RegIx) (s : State) : Host.Outcome State Fault Refusal :=
  .next (s.setResultFlag x (s.reg y - s.reg x) (noBorrowFlag (s.reg y) (s.reg x))).advance

/-- AND Vx, Vy (R84), no flag. -/
def execAnd (x y : RegIx) (s : State) : Host.Outcome State Fault Refusal :=
  .next (s.setReg x (s.reg x &&& s.reg y)).advance

/-- OR Vx, Vy (R85), no flag. -/
def execOr (x y : RegIx) (s : State) : Host.Outcome State Fault Refusal :=
  .next (s.setReg x (s.reg x ||| s.reg y)).advance

/-- XOR Vx, Vy (R86), no flag. -/
def execXor (x y : RegIx) (s : State) : Host.Outcome State Fault Refusal :=
  .next (s.setReg x (s.reg x ^^^ s.reg y)).advance

/-- SHL Vx, Vy (R87): x[Y] shifted left by one into x[X], the flag the bit shifted out. -/
def execShl (x y : RegIx) (s : State) : Host.Outcome State Fault Refusal :=
  .next (s.setResultFlag x (s.reg y <<< 1) (shiftLeftFlag (s.reg y))).advance

/-- SHR Vx, Vy (R88): x[Y] shifted right by one, zero coming in, the flag the bit shifted out. -/
def execShr (x y : RegIx) (s : State) : Host.Outcome State Fault Refusal :=
  .next (s.setResultFlag x (s.reg y >>> 1) (shiftRightFlag (s.reg y))).advance

/-- ADD Vx, byte (R89): modulo 256, no flag. -/
def execAddByte (x : RegIx) (kk : Byte) (s : State) : Host.Outcome State Fault Refusal :=
  .next (s.setReg x (s.reg x + kk)).advance

/-- LD Vx, Vy (R90): plain copy. -/
def execLdReg (x y : RegIx) (s : State) : Host.Outcome State Fault Refusal :=
  .next (s.setReg x (s.reg y)).advance

/-- LD Vx, byte (R91): load immediate, in by the spec's decision D6 (log entry 8). -/
def execLdByte (x : RegIx) (kk : Byte) (s : State) : Host.Outcome State Fault Refusal :=
  .next (s.setReg x kk).advance

end Sys2Proof.Machine
end

