-- ==== Sys2Proof/Machine/Control.lean ====
section
/-!
DEFINITION. The control-flow instructions (41_control_flow.md).
-/
namespace Sys2Proof.Machine

/-- JP addr (R100): the target masked to 12 bits. -/
def execJp (addr : Word) (s : State) : Host.Outcome State Fault Refusal :=
  .next (s.jump (maskAddr addr))

/-- JP V0, addr (R101): the operand masked, the sum with x[0] not. -/
def execJpV0 (addr : Word) (s : State) : Host.Outcome State Fault Refusal :=
  .next (s.jump (jumpV0Target s addr))

/-- CALL addr (R102): push npc, jump to the masked target; StackOverflow when SP = 16. -/
def execCall (addr : Word) (s : State) : Host.Outcome State Fault Refusal :=
  settle s ((s.push s.npc).map fun t => t.jump (maskAddr addr))

/-- RET (R103): pop into pc, not masked; StackUnderflow when SP = 0. -/
def execRet (s : State) : Host.Outcome State Fault Refusal :=
  settle s (s.pop.map fun r => r.2.jump r.1)

/-- SE Vx, byte (R104). -/
def execSeByte (x : RegIx) (kk : Byte) (s : State) : Host.Outcome State Fault Refusal :=
  .next (s.skipIf (s.reg x == kk))

/-- SNE Vx, byte (R105). -/
def execSneByte (x : RegIx) (kk : Byte) (s : State) : Host.Outcome State Fault Refusal :=
  .next (s.skipIf (s.reg x != kk))

/-- SE Vx, Vy (R106). -/
def execSeReg (x y : RegIx) (s : State) : Host.Outcome State Fault Refusal :=
  .next (s.skipIf (s.reg x == s.reg y))

/-- SNE Vx, Vy (R107). -/
def execSneReg (x y : RegIx) (s : State) : Host.Outcome State Fault Refusal :=
  .next (s.skipIf (s.reg x != s.reg y))

end Sys2Proof.Machine
end

