-- ==== Sys2Proof/Machine/MemoryIndex.lean ====
section
/-!
DEFINITION. The memory and index-register instructions (42_memory_index.md).
-/
namespace Sys2Proof.Machine

/-- LD I, addr (R120): the operand masked to 12 bits. -/
def execLdI (addr : Word) (s : State) : Host.Outcome State Fault Refusal :=
  .next { s with index := maskAddr addr }.advance

/-- ADD I, Vx (R121): modulo 2^16, not masked, no flag. -/
def execAddI (x : RegIx) (s : State) : Host.Outcome State Fault Refusal :=
  .next { s with index := s.index + (s.reg x).setWidth 16 }.advance

/-- LD F, Vx (R122): the glyph address of the whole byte. -/
def execLdF (x : RegIx) (s : State) : Host.Outcome State Fault Refusal :=
  .next { s with index := glyphAddr (s.reg x) }.advance

/-- LD [I], Vx (R123): store registers 0..X at I, I advanced by X+1; AddressFault before any
write when the range leaves memory (20_memory.md R53). -/
def execStoreRegs (x : RegIx) (s : State) : Host.Outcome State Fault Refusal :=
  settle s ((checkRange (dataBase s) (bulkCount x)).map fun _ =>
    { s.storeBytes (dataBase s) (bulkValues s x) with
      index := s.index + BitVec.ofNat 16 (bulkCount x) }.advance)

/-- LD Vx, [I] (R124): load registers 0..X from I, I advanced by X+1; AddressFault before any
write when the range leaves memory (20_memory.md R53). -/
def execLoadRegs (x : RegIx) (s : State) : Host.Outcome State Fault Refusal :=
  settle s ((checkRange (dataBase s) (bulkCount x)).map fun _ =>
    { s with
      regs := bulkLoaded s x (dataBase s)
      index := s.index + BitVec.ofNat 16 (bulkCount x) }.advance)

/-- LD B, Vx (R125): the three decimal digits of x[X] at I, I+1, I+2, I unchanged; AddressFault
before any write when the range leaves memory (20_memory.md R53). -/
def execLdB (x : RegIx) (s : State) : Host.Outcome State Fault Refusal :=
  settle s ((checkRange (dataBase s) 3).map fun _ =>
    (s.storeBytes (dataBase s) (decimalDigits (s.reg x))).advance)

end Sys2Proof.Machine
end

