-- ==== Sys2Proof/Machine/TimerRandomDisplay.lean ====
section
/-!
DEFINITION. The timer, random and display instructions (43_timers_random_display.md).
-/
namespace Sys2Proof.Machine

/-- LD DT, Vx (R140). -/
def execLdDtVx (x : RegIx) (s : State) : Host.Outcome State Fault Refusal :=
  .next { s with dt := s.reg x }.advance

/-- LD ST, Vx (R141). -/
def execLdStVx (x : RegIx) (s : State) : Host.Outcome State Fault Refusal :=
  .next { s with st := s.reg x }.advance

/-- LD Vx, DT (R142). -/
def execLdVxDt (x : RegIx) (s : State) : Host.Outcome State Fault Refusal :=
  .next (s.setReg x s.dt).advance

/-- RND Vx, byte (R145): a fresh draw and the mask; the draw is a free value (R146, log entry 4). -/
def execRnd (x : RegIx) (kk : Byte) (s : State) : Host.Outcome State Fault Refusal :=
  .next { s.setReg x (Config.rnd8 s.draws &&& kk) with draws := s.draws + 1 }.advance

/-- CLS (R148): every cell of the display buffer zero. -/
def execCls (s : State) : Host.Outcome State Fault Refusal :=
  .next { s with disp := Display.blank }.advance

end Sys2Proof.Machine
end

