-- ==== Sys2Proof/Machine/HostPort.lean ====
section
/-!
DEFINITION. The core's boundary (10_state.md section 13): the tick input, the host's events, the
read ports and the fault output. A port that turns a request away answers the host with a
`PortError` and changes nothing.
-/
namespace Sys2Proof.Machine

/-- One timer at a tick: less one, zero stays zero (60_exceptions.md R176). -/
def timerTick (v : Byte) : Byte := if v = 0#8 then 0#8 else v - 1#8

/-- The Tick event: both timers and nothing else (60_exceptions.md R176), faulted or not (R174). -/
def State.tick (s : State) : State := { s with dt := timerTick s.dt, st := timerTick s.st }

/-- HostReset (10_state.md R31, 70_reset_and_hazards.md R190): every piece of state of the core at
its reset value, memory loaded with the core's own FONT. The agents' coming moves and the count of
draws are not the core's and stay (log entry 12). -/
def State.hostReset (s : State) : State :=
  { State.resetWith s.font with agenda := s.agenda, cycle := s.cycle, draws := s.draws }

/-- Whether the dispatcher is stopped after reset, when HostStart and HostWriteMem are accepted
(10_state.md R32, R33; not while faulted, 60_exceptions.md R174). -/
def State.stopped (s : State) : Bool := !s.started && s.fault == .none

/-- HostStart(entry): the jump operation on behalf of the host, `pc <- entry & 0xFFF`, and the
dispatcher runs (10_state.md R32). -/
def State.hostStart (s : State) (entry : Word) : Except PortError State :=
  if s.stopped then .ok { s.jump (maskAddr entry) with started := true }
  else .error .notAccepted

/-- HostWriteMem(a, b): `MEM[a] <- b`, only while stopped and only at 12-bit addresses
(10_state.md R33). -/
def State.hostWriteMem (s : State) (a : Word) (b : Byte) : Except PortError State :=
  if s.stopped then
    match memWrite s a.toNat b with
    | .ok t => .ok t
    | .error _ => .error .outOfRange
  else .error .notAccepted

/-- What an event leaves when the port may turn it away: unaccepted, nothing changes (log entry 9). -/
def State.accept (s : State) : Except PortError State → State
  | .ok t => t
  | .error _ => s

/-! ### Read ports: functions of the state, changing nothing -/

/-- HostReadDisp(k), k below DISP_SIZE (10_state.md R34); what a port answers above its range is
the model's own (log entry 17). -/
def State.readDisp (s : State) (k : Nat) : Except PortError Byte :=
  if k < Config.dispSize then .ok (Display.get s.disp k) else .error .outOfRange

/-- The pixel at column `col` of row `row`, the cell at 64*row + col (10_state.md R25, R34). -/
def State.readPixel (s : State) (col : Fin Config.dispCols) (row : Fin Config.dispRows) : Byte :=
  Display.get s.disp (Config.dispCols * row.val + col.val)

/-- Debug read of pc (10_state.md R35). -/
def State.readPc (s : State) : Word := s.pc

/-- Debug read of I (10_state.md R35). -/
def State.readIndex (s : State) : Word := s.index

/-- Debug read of a data register (10_state.md R35). -/
def State.readReg (s : State) (i : RegIx) : Byte := s.reg i

/-- Debug read of a memory byte, address below MEM_SIZE (10_state.md R35; log entry 17 above). -/
def State.readMem (s : State) (a : Nat) : Except PortError Byte :=
  match memRead s a with
  | .ok b => .ok b
  | .error _ => .error .outOfRange

/-- Debug read of the top of the call stack, which fails when it is empty (10_state.md R18, R35). -/
def State.readTop (s : State) : Except PortError Word :=
  if s.sp.val = 0 then .error .stackUnderflow else .ok s.stack[s.sp.val - 1]

/-- Debug read of DT (10_state.md R35). -/
def State.readDelay (s : State) : Byte := s.dt

/-- Debug read of ST (10_state.md R35). -/
def State.readSound (s : State) : Byte := s.st

/-- The numeric code of a fault (60_exceptions.md R160). -/
def causeCode : Cause → BitVec 3
  | .none => 0#3
  | .stackOverflow => 1#3
  | .stackUnderflow => 2#3
  | .illegalInstruction => 3#3
  | .addressFault => 4#3

/-- The fault output: the pair (FAULT, FINFO), presented continuously (10_state.md R37). -/
def State.faultOutput (s : State) : BitVec 3 × Word := (causeCode s.fault, s.finfo)

end Sys2Proof.Machine
end

