-- ==== Sys2Proof/Machine/Sequencer.lean ====
section
/-!
DEFINITION. The dispatcher's step (30_encoding.md R66) and the moves of the three agents, one at a
time (00_scope.md R3).
-/
namespace Sys2Proof.Machine

/-- The fetch, `MemRead(pc, 2)`, pc not masked (20_memory.md R44). -/
def fetch (s : State) : Except Raised Word := memReadWord s s.pc.toNat

/-- Whether a dispatcher step is enabled: started, and no fault latched (30_encoding.md R66). -/
def State.running (s : State) : Bool := s.started && s.fault == .none

/-- Fetch, decode, execute, the first fault found being the one taken (30_encoding.md R66,
60_exceptions.md R168). -/
def fetchExecute (s : State) : Host.Outcome State Fault Refusal :=
  match fetch s with
  | .error e => .next (s.raise e)
  | .ok w =>
    match decodeWord w with
    | .error _ => .next (s.raise ⟨.illegalInstruction, w.toNat⟩)
    | .ok i => exec i s

/-- One dispatcher step. Where none is enabled (stopped after reset, or halted by a fault) the
dispatcher does nothing (30_encoding.md R66, 60_exceptions.md R166; log entry 11). -/
def dispatcherStep (s : State) : Host.Outcome State Fault Refusal :=
  if s.running then fetchExecute s else .next s

/-- One move of one agent (00_scope.md R3). -/
def perform (m : Move) (s : State) : Host.Outcome State Fault Refusal :=
  match m with
  | .dispatch => dispatcherStep s
  | .tick => .next s.tick
  | .hostReset => .next s.hostReset
  | .hostStart entry => .next (s.accept (s.hostStart entry))
  | .hostWriteMem a b => .next (s.accept (s.hostWriteMem a b))

/-- The move made next: the oldest of the agenda, else the first of the cycle, else the
dispatcher's (log entry 3). -/
def State.nextMove (s : State) : Move := (s.agenda ++ s.cycle).headD .dispatch

/-- The state with that move taken off: the agenda one shorter, or, the agenda used up, the rest of
the cycle. -/
def State.taken (s : State) : State :=
  { s with agenda := if s.agenda = [] then s.cycle.tail else s.agenda.tail }

/-- The next move is made, in the state with it taken off (log entry 3). -/
def performNext (s : State) : Host.Outcome State Fault Refusal := perform s.nextMove s.taken

/-- The agenda with the dispatcher's move in front, unless the dispatcher moves next anyway. -/
def State.dispatchFirst (s : State) : List Move :=
  if s.nextMove = .dispatch then s.agenda else .dispatch :: s.agenda

/-- An address instructions can be fetched from: the pc where it is one, else LOAD_ADDR. -/
def fetchableAddr (pc : Word) : Word := if pc.toNat ≤ 0xFFE then pc else Config.loadAddr

/-- `s` about to fetch the word `w`: its two bytes at the pc, the dispatcher let run, the latch
clear and the dispatcher's move first (log entry 13). -/
def State.placeWord (s : State) (w : Word) : State :=
  let at_ := fetchableAddr s.pc
  { s.storeBytes at_.toNat [highByte w, lowByte w] with
    pc := at_
    started := true
    fault := .none
    finfo := if s.fault = .none then s.finfo else 0#16
    agenda := s.dispatchFirst }

end Sys2Proof.Machine
end

