-- ==== Sys2Proof/Machine/Step.lean ====
section
/-!
DEFINITION. `step`: one move of the machine, and the placing of an instruction where the next step
fetches it.
-/
namespace Sys2Proof.Machine

/-- One step of the machine: one move of one agent (00_scope.md R3). -/
def step (s : State) : Host.Outcome State Fault Refusal := performNext s

/-- `s` with the instruction of bits `w` (those from `nbits` on zero) stored where the very next
step fetches, and running (log entry 13). -/
def State.withFetchWord (s : State) (nbits w : Nat) : State :=
  s.placeWord (BitVec.ofNat 16 (w % 2 ^ nbits))

end Sys2Proof.Machine
end

