-- ==== Sys2Proof/Machine/Schedule.lean ====
section
/-!
DEFINITION. Unbounded runs: any interleaving of the agents' moves, and the one assumption about it
the spec makes, that ticks keep arriving (60_exceptions.md R177); and the boot sequence
(70_reset_and_hazards.md R192). A schedule is a function and stands outside State.
-/
namespace Sys2Proof.Machine

/-- Which move is made at each moment of an unbounded run: any interleaving of the dispatcher, the
ticks and the host, zero, one or many ticks between two dispatcher steps (60_exceptions.md R177). -/
abbrev Schedule := Nat → Move

/-- The state a move leaves (every move answers a next state). -/
def State.after (s : State) (m : Move) : State :=
  match perform m s with
  | .next t => t
  | .fault _ => s
  | .refused _ => s

/-- The state after the first `n` moves of a schedule. -/
def runUnder (σ : Schedule) : Nat → State → State
  | 0, s => s
  | n + 1, s => (runUnder σ n s).after (σ n)

/-- The fairness assumption: ticks keep arriving (60_exceptions.md R177). -/
def Fair (σ : Schedule) : Prop := ∀ n, ∃ k, n ≤ k ∧ σ k = .tick

/-- The state `n` steps of the machine lead to. -/
def runSteps : Nat → State → State
  | 0, s => s
  | n + 1, s => (runSteps n s).taken.after (runSteps n s).nextMove

/-- The schedule the machine's own steps follow from a state: its agenda, then its cycle for ever. -/
def scheduleOf (s : State) : Schedule := fun n => (runSteps n s).nextMove

/-- The host's moves of the boot sequence: reset, the image loaded byte by byte from `loadAddr`, and
the start there (70_reset_and_hazards.md R192; LOAD_ADDR is by convention 0x200, 00_scope.md R1). -/
def bootMoves (loadAddr : Word) (image : List Byte) : List Move :=
  .hostReset :: image.mapIdx (fun k b => .hostWriteMem (loadAddr + BitVec.ofNat 16 k) b) ++
    [.hostStart loadAddr]

end Sys2Proof.Machine
end

