-- ==== Sys2Proof/Safety.lean ====
section
/-!
DEFINITION. What counts as a safe state and a safe step, the invariants of the machine, and the
frames, in the terms claims use.
-/
namespace Sys2Proof.Machine

/-! ### Safe runs -/

/-- No fault is latched: the premise of claims about runs (60_exceptions.md R167, R174). -/
def State.faultFree (s : State) : Bool := s.fault == .none

/-- The step answers a next state in which no fault is latched (00_scope.md R5). -/
def StepsSafely (s : State) : Prop := ∃ t, step s = .next t ∧ t.faultFree = true

/-! ### Invariants -/

/-- Memory is in its canonical form. -/
def State.memCanonical (s : State) : Prop := s.mem.wf s.font = true

/-- Every display cell is zero (10_state.md R26). -/
def State.displayDark (s : State) : Prop := ∀ k, Display.get s.disp k = 0x00#8

/-- The pc is at most 0x10FE, and every live return address at most 0x1000 (10_state.md R15). -/
def State.pcBounded (s : State) : Prop :=
  s.pc.toNat ≤ 0x10FE ∧ ∀ k : Fin 16, k.val < s.sp.val → s.stack[k].toNat ≤ 0x1000

/-- The latch is consistent: no fault, no information (60_exceptions.md R160), and a fault only in
a dispatcher that was started (30_encoding.md R66). -/
def State.latchConsistent (s : State) : Prop :=
  (s.fault = .none → s.finfo = 0x0000#16) ∧ (s.fault ≠ .none → s.started = true)

/-! ### Which instruction writes which data register (10_state.md R12, the table after it) -/

/-- The five instructions that write x[0xF] as their flag (10_state.md R29). -/
def writesFlag : Instr → Bool
  | .addReg _ _ | .sub _ _ | .subn _ _ | .shl _ _ | .shr _ _ => true
  | .cls | .ret | .jp _ | .call _ | .jpV0 _ | .ldI _ => false
  | .seByte _ _ | .sneByte _ _ | .seReg _ _ | .sneReg _ _ => false
  | .ldByte _ _ | .addByte _ _ | .ldReg _ _ | .or _ _ | .and _ _ | .xor _ _ | .rnd _ _ => false
  | .ldVxDt _ | .ldDtVx _ | .ldStVx _ | .addI _ | .ldF _ | .ldB _ | .storeRegs _ | .loadRegs _ => false

/-- Register `r` is a destination the instruction names (for LD Vx, [I], one of 0..X). -/
def namesDestination (r : RegIx) : Instr → Bool
  | .addReg x _ | .sub x _ | .subn x _ | .shl x _ | .shr x _ => r == x
  | .ldByte x _ | .addByte x _ | .ldReg x _ | .or x _ | .and x _ | .xor x _ | .rnd x _ => r == x
  | .ldVxDt x => r == x
  | .loadRegs x => decide (r ≤ x)
  | .cls | .ret | .jp _ | .call _ | .jpV0 _ | .ldI _ => false
  | .seByte _ _ | .sneByte _ _ | .seReg _ _ | .sneReg _ _ => false
  | .ldDtVx _ | .ldStVx _ | .addI _ | .ldF _ | .ldB _ | .storeRegs _ => false

/-! ### Frames: what a step from `s` to `t` may change -/

/-- Nothing but the pc. -/
def OnlyPc (s t : State) : Prop := t = { s with pc := t.pc }

/-- Nothing but data registers and the pc. -/
def OnlyRegsPc (s t : State) : Prop := t = { s with regs := t.regs, pc := t.pc }

/-- Nothing but I and the pc. -/
def OnlyIndexPc (s t : State) : Prop := t = { s with index := t.index, pc := t.pc }

/-- Nothing but the call stack, its depth and the pc. -/
def OnlyStackPc (s t : State) : Prop := t = { s with stack := t.stack, sp := t.sp, pc := t.pc }

/-- Nothing but data registers, I and the pc. -/
def OnlyRegsIndexPc (s t : State) : Prop :=
  t = { s with regs := t.regs, index := t.index, pc := t.pc }

/-- Nothing but memory and the pc. -/
def OnlyMemPc (s t : State) : Prop := t = { s with mem := t.mem, pc := t.pc }

/-- Nothing but memory, I and the pc. -/
def OnlyMemIndexPc (s t : State) : Prop :=
  t = { s with mem := t.mem, index := t.index, pc := t.pc }

/-- Nothing but the fault latch: the state a fault leaves (60_exceptions.md R166). -/
def OnlyLatch (s t : State) : Prop := t = { s with fault := t.fault, finfo := t.finfo }

/-- The lowest address above 0xFFF that an access starting at I reaches, when it leaves memory
(20_memory.md R53: I itself if I > 0xFFF, else 0x1000). -/
def lowestOffending (s : State) : Word := if s.index.toNat > 0xFFF then s.index else 0x1000#16

/-- Every byte of memory reads as before. -/
def SameMemory (s t : State) : Prop := ∀ a, t.byte a = s.byte a

/-- Every byte of memory outside the `count` bytes from `base` reads as before. -/
def SameMemoryOutside (base count : Nat) (s t : State) : Prop :=
  ∀ a, a < base ∨ base + count ≤ a → t.byte a = s.byte a

/-- Every data register outside `written` is as before. -/
def SameRegsExcept (written : List RegIx) (s t : State) : Prop :=
  ∀ r, r ∉ written → t.reg r = s.reg r

end Sys2Proof.Machine
end

