-- ==== Sys2Proof/Certificates/Slice0/Obligations.lean ====
section
/-!
DEFINITION. The statements for the provers. Each docstring says what of the spec it formalises; a
clause that rests on the spec's own decision or the model's choice names it.
-/
open Sys2Proof Sys2Proof.Machine

/-- For every instruction whose address operand fits 12 bits, decoding its word gives the instruction,
and decoding its bytes followed by any bytes gives the instruction and those bytes. The patterns
are the spec's decisions D2 and D3 (log entry 7). (30_encoding.md sections 1 to 3 (R61, R62, R65),
92_eei_decisions.md D2, D3) -/
def Obligations.DecodeOfEncodeIsInstruction : Prop :=
  ∀ i : Instr, i.wellFormed = true →
    decodeWord (encode i) = .ok i ∧ ∀ rest, decode (encodeBytes i ++ rest) = .ok (i, rest)

/-- For every word that decodes to an instruction, encoding that instruction gives the word, and the
instruction is well formed: no bit of a word is ignored. The patterns are the spec's decision D2
(log entry 7). (30_encoding.md sections 1 to 3 (R61, R62, R65, R70), 92_eei_decisions.md D2, D5) -/
def Obligations.EncodeOfDecodeIsWord : Prop :=
  ∀ (w : Word) (i : Instr), decodeWord w = .ok i → encode i = w ∧ i.wellFormed = true

/-- The map has 30 rows; a word that decodes matches the row of its instruction, a row of the map; and
a word that matches a row of the map decodes to an instruction of that row. The rows' patterns are
the spec's decision D2 (log entry 7). (30_encoding.md section 3 (R65), 92_eei_decisions.md D2) -/
def Obligations.WordSelectsTheRowItMatches : Prop :=
  opcodeRows.length = 30 ∧
  (∀ (w : Word) (i : Instr), decodeWord w = .ok i →
    rowOf i ∈ opcodeRows ∧ (rowOf i).accepts w = true) ∧
  ∀ (w : Word) (r : OpcodeRow), r ∈ opcodeRows → r.accepts w = true →
    ∃ i, decodeWord w = .ok i ∧ rowOf i = r

/-- Two rows of the opcode map that accept one word are the same row, so the order of rows does not
matter. The rows' patterns are the spec's decision D2 (log entry 7). (30_encoding.md section 3
(R65), 92_eei_decisions.md D2) -/
def Obligations.OpcodeRowsAreDisjoint : Prop :=
  ∀ (w : Word) (r r' : OpcodeRow), r ∈ opcodeRows → r' ∈ opcodeRows →
    r.accepts w = true → r'.accepts w = true → r = r'

/-- A word decodes to no instruction if and only if it is below 0x1000 and neither 00E0 nor 00EE, or
5xyN or 9xyN with N nonzero, or 8xyN with N one of 8,9,A,B,C,D,F, or Dxyn, or Exkk, or Fxkk with
kk not one of 07,15,18,1E,29,33,55,65. That they are illegal is the spec's decision D5.
(30_encoding.md section 5 (R70, R71, R72), 92_eei_decisions.md D5) -/
def Obligations.IllegalWordsAreExactlyTheListed : Prop :=
  ∀ w : Word, (∃ e, decodeWord w = .error e) ↔
    ((w.toNat < 0x1000 ∧ w ≠ 0x00E0#16 ∧ w ≠ 0x00EE#16) ∨
      (w.toNat / 0x1000 = 0x5 ∧ w.toNat % 16 ≠ 0) ∨
      (w.toNat / 0x1000 = 0x8 ∧ w.toNat % 16 ∈ [0x8, 0x9, 0xA, 0xB, 0xC, 0xD, 0xF]) ∨
      (w.toNat / 0x1000 = 0x9 ∧ w.toNat % 16 ≠ 0) ∨
      w.toNat / 0x1000 = 0xD ∨ w.toNat / 0x1000 = 0xE ∨
      (w.toNat / 0x1000 = 0xF ∧
        w.toNat % 256 ∉ [0x07, 0x15, 0x18, 0x1E, 0x29, 0x33, 0x55, 0x65]))

/-- The words of the spec's encoding examples and one word of each other family decode to the
instructions they stand for, and the illegal example is refused (patterns: decision D2, log entry
7). (30_encoding.md section 7, 95_test_vectors.md section 2.5, 92_eei_decisions.md D2) -/
def Obligations.SampleWordsDecodeAsTheSpecSays : Prop :=
  decodeWord 0x632A#16 = .ok (.ldByte 3 0x2A#8) ∧ decodeWord 0x8AB4#16 = .ok (.addReg 0xA 0xB) ∧
  decodeWord 0x812E#16 = .ok (.shl 1 2) ∧ decodeWord 0x1234#16 = .ok (.jp 0x234#16) ∧
  decodeWord 0xFF55#16 = .ok (.storeRegs 0xF) ∧ decodeWord 0x5010#16 = .ok (.seReg 0 1) ∧
  decodeWord 0xA2F0#16 = .ok (.ldI 0x2F0#16) ∧ decodeWord 0xF315#16 = .ok (.ldDtVx 3) ∧
  decodeWord 0xC30F#16 = .ok (.rnd 3 0x0F#8) ∧ decodeWord 0x00E0#16 = .ok .cls ∧
  decodeWord 0x00EE#16 = .ok .ret ∧ decodeWord 0x5011#16 = .error (.unassigned 0x5011#16)

/-- When the dispatcher's move is the next one and the dispatcher is started, no fault is latched, pc
is at most 0xFFE and the two bytes at pc decode to an instruction, the step is exactly exec of it,
at the state with that move taken off: at that state itself when no move is listed, and with the
first entry of the agenda removed when the agenda begins with the dispatcher's move (agenda and
cycle are the model's own, log entry 3). (30_encoding.md section 4 (R66), 20_memory.md section 4
(R44), 92_eei_decisions.md D3, D4) -/
def Obligations.StepRunsTheDecodedInstruction : Prop :=
  ∀ (s : State) (i : Instr), s.running = true → s.pc.toNat ≤ 0xFFE →
    decode [s.byte s.pc.toNat, s.byte (s.pc.toNat + 1)] = .ok (i, []) →
    (s.nextMove = .dispatch → step s = exec i s.taken) ∧
    (s.agenda = [] → s.cycle = [] → step s = exec i s) ∧
    ∀ rest, s.agenda = .dispatch :: rest → step s = exec i { s with agenda := rest }

/-- In every state whose memory is canonical, placing the word of a well-formed instruction makes the
dispatcher's move the next one and the next step exec of that instruction, at the placed state
with that move taken off. withFetchWord is the model's own (log entry 13). (30_encoding.md section
4 (R66), 10_state.md section 13 (R32, R33), 70_reset_and_hazards.md section 2 (R192)) -/
def Obligations.PlacedWordRunsNext : Prop :=
  ∀ (s : State) (i : Instr), s.memCanonical → i.wellFormed = true →
    (s.withFetchWord 16 (encode i).toNat).nextMove = .dispatch ∧
    step (s.withFetchWord 16 (encode i).toNat) =
      exec i (s.withFetchWord 16 (encode i).toNat).taken

/-- With pc at most 0xFFE, odd or even, the fetch gives the word whose value is 256 times the byte at
pc plus the byte at pc+1 (big-endian is the spec's decision D3, log entry 7). (20_memory.md
sections 3 and 4 (R43, R44), 92_eei_decisions.md D3) -/
def Obligations.FetchIsBigEndian : Prop :=
  ∀ s : State, s.pc.toNat ≤ 0xFFE → ∃ w, fetch s = .ok w ∧
    w.toNat = 256 * (s.byte s.pc.toNat).toNat + (s.byte (s.pc.toNat + 1)).toNat

/-- When the dispatcher's move is the next one (none listed, or the first listed in agenda and cycle:
log entry 3) and it steps with pc above 0xFFE, the next state is the same, the move taken off, but
for FAULT = AddressFault and FINFO = 0x1000 if pc = 0xFFF, else pc. The fault is the spec's
decision D8 (log entry 5), its form D9 (log entry 14). (20_memory.md section 4 (R44),
60_exceptions.md sections 1 and 2 (R164, R166, R168), 92_eei_decisions.md D8, D9) -/
def Obligations.FetchAboveMemoryRaisesAddressFault : Prop :=
  ∀ s : State, s.running = true → s.nextMove = .dispatch → 0xFFE < s.pc.toNat →
    step s = .next { s.taken with
      fault := .addressFault, finfo := if s.pc = 0xFFF#16 then 0x1000#16 else s.pc }

/-- When the dispatcher's move is the next one (none listed, or the first listed in agenda and cycle:
log entry 3) and it steps on two bytes that decode to no instruction, the next state is the same,
the move taken off, but for FAULT = IllegalInstruction and FINFO = the word. The fault is the
spec's decision D5, its form D9 (log entry 14). (30_encoding.md section 5 (R71), 60_exceptions.md
sections 1 and 2 (R163, R166), 92_eei_decisions.md D5, D9) -/
def Obligations.IllegalWordRaisesIllegalInstruction : Prop :=
  ∀ (s : State) (e : Reject), s.running = true → s.nextMove = .dispatch → s.pc.toNat ≤ 0xFFE →
    decodeWord (wordOfBytes (s.byte s.pc.toNat) (s.byte (s.pc.toNat + 1))) = .error e →
    step s = .next { s.taken with
      fault := .illegalInstruction
      finfo := wordOfBytes (s.byte s.pc.toNat) (s.byte (s.pc.toNat + 1)) }

/-- When the dispatcher is not started or a fault is latched, and the dispatcher's move is the next
one (none listed, or the first listed in agenda and cycle: log entry 3), the step leaves
everything as it is, but that the move is taken off; where no move is listed it leaves everything.
The stopped bit and the latch are the spec's decisions D15 and D9 (log entry 14), the idle step is
the model's (log entry 11). (30_encoding.md section 4 (R66), 10_state.md sections 8 and 13 (R27,
R31), 92_eei_decisions.md D9, D15) -/
def Obligations.DisabledDispatcherChangesNothing : Prop :=
  ∀ s : State, (s.started = false ∨ s.fault ≠ .none) →
    (s.nextMove = .dispatch → step s = .next s.taken) ∧
    (s.agenda = [] → s.cycle = [] → step s = .next s) ∧
    ∀ rest, s.agenda = .dispatch :: rest → step s = .next { s with agenda := rest }

/-- From a state with a latched fault, a step whose move is not HostReset leaves every piece of state
as it was but DT and ST, which change only when the move is a tick (and the move is taken off).
The latch and what holds while faulted are the spec's decisions D9 and D25 (log entry 14).
(60_exceptions.md section 2 (R166, R169, R174), 92_eei_decisions.md D9, D25) -/
def Obligations.LatchedFaultStaysUntilReset : Prop :=
  ∀ s t : State, s.fault ≠ .none → step s = .next t →
    s.nextMove ≠ .hostReset →
    t = { s.taken with dt := t.dt, st := t.st } ∧
      (s.nextMove ≠ .tick → t.dt = s.dt ∧ t.st = s.st)

/-- If an instruction run with no fault latched leaves one, it changed nothing but FAULT and FINFO,
and it is a CALL at SP = 16 (StackOverflow, FINFO npc), a RET at SP = 0 (StackUnderflow, FINFO 0),
or LD [I],Vx, LD Vx,[I] or LD B,Vx whose range leaves memory (AddressFault, FINFO the lowest
offending address). The latch is decision D9 (log entry 14), AddressFault decision D8 (log entry
5). (60_exceptions.md sections 1 and 2 (R160, R161, R162, R164, R166), 20_memory.md section 2
(R53), 92_eei_decisions.md D8, D9) -/
def Obligations.FaultsArePreciseAndAttributed : Prop :=
  ∀ (i : Instr) (s t : State), s.fault = .none → exec i s = .next t → t.fault ≠ .none →
    OnlyLatch s t ∧
    ((t.fault = .stackOverflow ∧ (∃ a, i = .call a) ∧ s.sp.val = 16 ∧ t.finfo = s.pc + 2#16) ∨
      (t.fault = .stackUnderflow ∧ i = .ret ∧ s.sp.val = 0 ∧ t.finfo = 0#16) ∨
      (t.fault = .addressFault ∧ t.finfo = lowestOffending s ∧
        ((∃ x : RegIx, (i = .storeRegs x ∨ i = .loadRegs x) ∧ 0xFFF < s.index.toNat + x.val) ∨
          ((∃ x, i = .ldB x) ∧ 0xFFF < s.index.toNat + 2))))

/-- In every state, whatever memory holds and whichever move is next, the step answers a next state:
the machine has no model fault and refuses nothing. That a halted dispatcher idles is the model's
choice (log entry 11). (60_exceptions.md section 2 (R165, R166, R167), 00_scope.md section 4 (R2)) -/
def Obligations.StepAlwaysAnswersNextState : Prop :=
  ∀ s : State, ∃ t, step s = .next t

/-- At reset, with the default FONT (log entry 2) and with any other, memory is canonical, the display
is dark, pc and live return addresses are bounded, and the latch is consistent. (10_state.md
sections 3, 7, 8, 12 (R15, R26, R27, R30)) -/
def Obligations.ResetMeetsTheInvariants : Prop :=
  (State.reset.memCanonical ∧ State.reset.displayDark ∧ State.reset.pcBounded ∧
    State.reset.latchConsistent) ∧
  ∀ font, (State.resetWith font).memCanonical ∧ (State.resetWith font).displayDark ∧
    (State.resetWith font).pcBounded ∧ (State.resetWith font).latchConsistent

/-- If memory is canonical (addresses strictly rising, below 4096, no entry equal to the reset
contents of the core's FONT) and the step answers a next state, memory is canonical there: no step
stores outside the 4096 bytes; and every step leaves the parameter FONT as it is (log entry 2).
(20_memory.md section 2 (R42, R53), 10_state.md sections 6 and 13 (R21, R33)) -/
def Obligations.StepKeepsMemoryCanonical : Prop :=
  ∀ s t : State, step s = .next t →
    t.font = s.font ∧ (s.memCanonical → t.memCanonical)

/-- If every display cell is zero and the step answers a next state, every display cell is zero there:
nothing lights a pixel. (10_state.md section 7 (R26), 43_timers_random_display.md section 3 (R148,
R149)) -/
def Obligations.StepKeepsDisplayDark : Prop :=
  ∀ s t : State, s.displayDark → step s = .next t → t.displayDark

/-- If pc is at most 0x10FE and every live stack entry at most 0x1000, and the step answers a next
state, the same holds there, so pc never wraps. (10_state.md section 3 (R14, R15),
41_control_flow.md section 1 (R108)) -/
def Obligations.StepKeepsPcBounded : Prop :=
  ∀ s t : State, s.pcBounded → step s = .next t → t.pcBounded

/-- If FINFO is 0 while no fault is latched and a latched fault stands only in a started dispatcher,
and the step answers a next state, the same holds there. The latch is the spec's decision D9, the
started bit its decision D15 (log entry 14); that a fault stands only in a started dispatcher
follows from them, since only a started dispatcher steps. (10_state.md sections 8 and 13 (R27,
R31, R32), 30_encoding.md section 4 (R66), 60_exceptions.md section 1 (R160), 92_eei_decisions.md
D9, D15) -/
def Obligations.StepKeepsLatchConsistent : Prop :=
  ∀ s t : State, s.latchConsistent → step s = .next t → t.latchConsistent

/-- After reset, for every value of the parameter FONT, every data register, I, pc, DT, ST, every
display cell and SP are zero, memory holds FONT at 0x000 to 0x04F and zero above, no fault is
latched, FINFO is 0 and the dispatcher is stopped; State.reset is that state for the default FONT.
FONT is decision D16 and its default's bytes are general knowledge (log entry 2), the latch D9,
the stopped bit D15 (log entry 14); the stack entries, which have no value, are not stated.
(10_state.md section 12 (R30), 70_reset_and_hazards.md section 1 (R190, R191), 92_eei_decisions.md
D9, D15, D16) -/
def Obligations.ResetStateHasTheSpecsValues : Prop :=
  (∀ font : Font,
    (∀ r, (State.resetWith font).reg r = 0#8) ∧ (State.resetWith font).index = 0#16 ∧
    (State.resetWith font).pc = 0#16 ∧ (State.resetWith font).sp = 0 ∧
    (State.resetWith font).dt = 0#8 ∧ (State.resetWith font).st = 0#8 ∧
    (∀ k, k < 2048 → (State.resetWith font).readDisp k = .ok 0#8) ∧
    (∀ a, ∀ h : a < 80, (State.resetWith font).readMem a = .ok font[a]) ∧
    (∀ a, 80 ≤ a → a < 4096 → (State.resetWith font).readMem a = .ok 0#8) ∧
    (State.resetWith font).fault = .none ∧ (State.resetWith font).finfo = 0#16 ∧
    (State.resetWith font).started = false) ∧
  State.reset = State.resetWith defaultFont ∧ defaultFont.toList = fontTable

/-- A HostReset move leaves the reset state of the core's own FONT, whatever the state before, a
latched fault included. The model's choices in it: the stack entries, which the spec gives no
value, are 0x0000 (log entry 1); FONT is the core's parameter, the default where State.reset set
it (log entry 2); the moves still to come and the count of draws stay (log entry 12). (10_state.md
sections 6, 12 and 13 (R24, R30, R31), 70_reset_and_hazards.md section 1 (R190),
92_eei_decisions.md D15, D16, D17) -/
def Obligations.HostResetRestoresTheResetState : Prop :=
  ∀ s : State, s.nextMove = .hostReset →
    step s = .next { State.resetWith s.font with
      agenda := s.taken.agenda, cycle := s.cycle, draws := s.draws }

/-- A HostStart move on a dispatcher stopped after reset sets pc to the entry modulo 4096 and starts
it, changing nothing else; on a started or faulted one it is turned away and changes nothing (log
entry 9); either way the move is taken off (log entry 3). The event is the spec's decision D15
(log entry 14). (10_state.md section 13 (R32), 60_exceptions.md section 2 (R174),
92_eei_decisions.md D15) -/
def Obligations.HostStartJumpsAndRuns : Prop :=
  ∀ (s : State) (entry : Word), s.nextMove = .hostStart entry →
    (s.started = false → s.fault = .none →
      ∃ t, step s = .next t ∧ t.pc.toNat = entry.toNat % 4096 ∧
        t = { s.taken with pc := t.pc, started := true }) ∧
    (s.started = true ∨ s.fault ≠ .none → step s = .next s.taken)

/-- A HostWriteMem move on a dispatcher stopped after reset, at an address up to 0xFFF, stores the
byte there and changes nothing else; at a higher address, or on a started or faulted dispatcher,
nothing changes (log entries 9 and 10); the move is taken off (log entry 3). The event is the
spec's decision D19. (10_state.md section 13 (R33), 60_exceptions.md section 2 (R174),
92_eei_decisions.md D19) -/
def Obligations.HostWriteMemStoresWhileStopped : Prop :=
  ∀ (s : State) (a : Word) (b : Byte), s.memCanonical → s.nextMove = .hostWriteMem a b →
    (s.started = false → s.fault = .none → a.toNat ≤ 0xFFF →
      ∃ t, step s = .next t ∧ t.byte a.toNat = b ∧ SameMemoryOutside a.toNat 1 s t ∧
        t = { s.taken with mem := t.mem }) ∧
    (s.started = true ∨ s.fault ≠ .none ∨ 0xFFF < a.toNat → step s = .next s.taken)

/-- A tick move, in any state, lowers DT and ST by one each unless zero, where they stay (staying at
zero is the spec's decision D11, log entry 14), and changes nothing else but that the move is
taken off (log entry 3). (60_exceptions.md section 5 (R176), 10_state.md section 5 (R19, R20),
92_eei_decisions.md D11) -/
def Obligations.TickDecrementsNonzeroTimers : Prop :=
  ∀ s : State, s.nextMove = .tick →
    ∃ t, step s = .next t ∧ t.dt.toNat = s.dt.toNat - 1 ∧ t.st.toNat = s.st.toNat - 1 ∧
      t = { s.taken with dt := t.dt, st := t.st }

/-- The reads of pc, I, each data register, DT and ST give their values; the top-of-stack read fails
when SP = 0 and otherwise gives STACK[SP-1]; memory reads give the byte up to 0xFFF and display
reads the cell below 2048, and above those ranges, which the spec leaves unstated, both answer the
model's own error (log entry 17); the fault output is the cause's code 0 to 4 and FINFO. Ports and
codes are the spec's decisions D9, D19, D23 (log entry 14). (10_state.md sections 4 and 13 (R18,
R34, R35, R37), 60_exceptions.md section 1 (R160), 92_eei_decisions.md D9, D19, D23) -/
def Obligations.ReadPortsShowTheState : Prop :=
  ∀ s : State,
    s.readPc = s.pc ∧ s.readIndex = s.index ∧ (∀ i, s.readReg i = s.regs[i]) ∧
    s.readDelay = s.dt ∧ s.readSound = s.st ∧
    (s.sp.val = 0 → s.readTop = .error .stackUnderflow) ∧
    (∀ h : 0 < s.sp.val, s.readTop = .ok (s.stack[s.sp.val - 1]'(by omega))) ∧
    (∀ a, s.readMem a = if a ≤ 0xFFF then .ok (s.byte a) else .error .outOfRange) ∧
    (∀ k, s.readDisp k = if k < 2048 then .ok (Display.get s.disp k) else .error .outOfRange) ∧
    s.faultOutput.2 = s.finfo ∧ s.faultOutput.1.toNat =
      (match s.fault with
        | .none => 0 | .stackOverflow => 1 | .stackUnderflow => 2
        | .illegalInstruction => 3 | .addressFault => 4)

/-- ADD Vx,Vy writes (a+b) mod 256 to x[X] and 1 to x[0xF] if a+b > 255, else 0, from the values
before. With X = 0xF the register ends holding the flag (the spec's decision D7, log entry 6). No
other register and no other state changes but pc, which becomes pc + 2. (40_register_arithmetic.md
sections 1 and 2 (R80, R81), 92_eei_decisions.md D7) -/
def Obligations.AddRegistersSumAndCarry : Prop :=
  ∀ (x y : RegIx) (s : State), ∃ t, exec (.addReg x y) s = .next t ∧
    (x ≠ 0xF → (t.reg x).toNat = ((s.reg x).toNat + (s.reg y).toNat) % 256) ∧
    t.reg 0xF = (if (s.reg x).toNat + (s.reg y).toNat > 255 then 0x01#8 else 0x00#8) ∧
    t.pc = s.pc + 2#16 ∧ SameRegsExcept [x, 0xF] s t ∧ OnlyRegsPc s t ∧ SameMemory s t

/-- SUB Vx,Vy writes (a+256-b) mod 256 to x[X] and 0 to x[0xF] if b > a, else 1, from the values
before. With X = 0xF the register ends holding the flag (the spec's decision D7, log entry 6). No
other register and no other state changes but pc, which becomes pc + 2. (40_register_arithmetic.md
sections 1 and 2 (R80, R82), 92_eei_decisions.md D7) -/
def Obligations.SubtractDifferenceAndNoBorrow : Prop :=
  ∀ (x y : RegIx) (s : State), ∃ t, exec (.sub x y) s = .next t ∧
    (x ≠ 0xF → (t.reg x).toNat = ((s.reg x).toNat + 256 - (s.reg y).toNat) % 256) ∧
    t.reg 0xF = (if (s.reg y).toNat > (s.reg x).toNat then 0x00#8 else 0x01#8) ∧
    t.pc = s.pc + 2#16 ∧ SameRegsExcept [x, 0xF] s t ∧ OnlyRegsPc s t ∧ SameMemory s t

/-- SUBN Vx,Vy writes (b+256-a) mod 256 to x[X] and 0 to x[0xF] if a > b, else 1, from the values
before. With X = 0xF the register ends holding the flag (the spec's decision D7, log entry 6). No
other register and no other state changes but pc, which becomes pc + 2. (40_register_arithmetic.md
sections 1 and 2 (R80, R83), 92_eei_decisions.md D7) -/
def Obligations.ReverseSubtractDifferenceAndNoBorrow : Prop :=
  ∀ (x y : RegIx) (s : State), ∃ t, exec (.subn x y) s = .next t ∧
    (x ≠ 0xF → (t.reg x).toNat = ((s.reg y).toNat + 256 - (s.reg x).toNat) % 256) ∧
    t.reg 0xF = (if (s.reg x).toNat > (s.reg y).toNat then 0x00#8 else 0x01#8) ∧
    t.pc = s.pc + 2#16 ∧ SameRegsExcept [x, 0xF] s t ∧ OnlyRegsPc s t ∧ SameMemory s t

/-- SHL Vx,Vy writes 2*x[Y] mod 256 to x[X] and bit 7 of x[Y] to x[0xF], from the value before. With X
= 0xF the register ends holding the flag (the spec's decision D7, log entry 6). No other register
and no other state changes but pc, which becomes pc + 2. (40_register_arithmetic.md sections 1 and
2 (R80, R87), 92_eei_decisions.md D7) -/
def Obligations.ShiftLeftDoublesAndCatchesBit7 : Prop :=
  ∀ (x y : RegIx) (s : State), ∃ t, exec (.shl x y) s = .next t ∧
    (x ≠ 0xF → (t.reg x).toNat = 2 * (s.reg y).toNat % 256) ∧
    t.reg 0xF = (if (s.reg y).toNat ≥ 128 then 0x01#8 else 0x00#8) ∧
    t.pc = s.pc + 2#16 ∧ SameRegsExcept [x, 0xF] s t ∧ OnlyRegsPc s t ∧ SameMemory s t

/-- SHR Vx,Vy writes x[Y] div 2 to x[X] and bit 0 of x[Y] to x[0xF], from the value before. With X =
0xF the register ends holding the flag (the spec's decision D7, log entry 6). No other register
and no other state changes but pc, which becomes pc + 2. (40_register_arithmetic.md sections 1 and
2 (R80, R88), 92_eei_decisions.md D7) -/
def Obligations.ShiftRightHalvesAndCatchesBit0 : Prop :=
  ∀ (x y : RegIx) (s : State), ∃ t, exec (.shr x y) s = .next t ∧
    (x ≠ 0xF → (t.reg x).toNat = (s.reg y).toNat / 2) ∧
    t.reg 0xF = (if (s.reg y).toNat % 2 = 1 then 0x01#8 else 0x00#8) ∧
    t.pc = s.pc + 2#16 ∧ SameRegsExcept [x, 0xF] s t ∧ OnlyRegsPc s t ∧ SameMemory s t

/-- AND, OR and XOR write to x[X] the bitwise and, or, exclusive or of x[X] and x[Y]; no other
register changes, x[0xF] among them unless X = 0xF, and pc becomes pc + 2. (R84, R85, R86) -/
def Obligations.LogicIsBitwiseWithoutFlag : Prop :=
  ∀ (x y : RegIx) (s : State),
    (∃ t, exec (.and x y) s = .next t ∧
      (∀ k, (t.reg x).getLsbD k = ((s.reg x).getLsbD k && (s.reg y).getLsbD k)) ∧
      t.pc = s.pc + 2#16 ∧ SameRegsExcept [x] s t ∧ OnlyRegsPc s t ∧ SameMemory s t) ∧
    (∃ t, exec (.or x y) s = .next t ∧
      (∀ k, (t.reg x).getLsbD k = ((s.reg x).getLsbD k || (s.reg y).getLsbD k)) ∧
      t.pc = s.pc + 2#16 ∧ SameRegsExcept [x] s t ∧ OnlyRegsPc s t ∧ SameMemory s t) ∧
    (∃ t, exec (.xor x y) s = .next t ∧
      (∀ k, (t.reg x).getLsbD k = ((s.reg x).getLsbD k ^^ (s.reg y).getLsbD k)) ∧
      t.pc = s.pc + 2#16 ∧ SameRegsExcept [x] s t ∧ OnlyRegsPc s t ∧ SameMemory s t)

/-- ADD Vx,byte writes (x[X] + kk) mod 256 to x[X]; no other register changes, x[0xF] among them
unless X = 0xF, and pc becomes pc + 2. (R89) -/
def Obligations.AddByteWrapsWithoutFlag : Prop :=
  ∀ (x : RegIx) (kk : Byte) (s : State), ∃ t, exec (.addByte x kk) s = .next t ∧
    (t.reg x).toNat = ((s.reg x).toNat + kk.toNat) % 256 ∧
    t.pc = s.pc + 2#16 ∧ SameRegsExcept [x] s t ∧ OnlyRegsPc s t ∧ SameMemory s t

/-- LD Vx,Vy writes x[Y] to x[X]; no other register changes and pc becomes pc + 2. (R90) -/
def Obligations.RegisterCopyIsPlain : Prop :=
  ∀ (x y : RegIx) (s : State), ∃ t, exec (.ldReg x y) s = .next t ∧ t.reg x = s.reg y ∧
    t.pc = s.pc + 2#16 ∧ SameRegsExcept [x] s t ∧ OnlyRegsPc s t ∧ SameMemory s t

/-- LD Vx,byte writes kk to x[X]; no other register changes and pc becomes pc + 2. The instruction is
in by the spec's decision D6 (log entry 8). (40_register_arithmetic.md section 2 (R91),
92_eei_decisions.md D6) -/
def Obligations.LoadImmediateIsPlain : Prop :=
  ∀ (x : RegIx) (kk : Byte) (s : State), ∃ t, exec (.ldByte x kk) s = .next t ∧ t.reg x = kk ∧
    t.pc = s.pc + 2#16 ∧ SameRegsExcept [x] s t ∧ OnlyRegsPc s t ∧ SameMemory s t

/-- If any instruction answers a next state and register r is no destination it names and, for r =
0xF, it is none of the five flag writers, x[r] is unchanged. (10_state.md section 1 (R11) and its
table of reads and writes) -/
def Obligations.RegistersChangeOnlyByTheirWriters : Prop :=
  ∀ (i : Instr) (s t : State) (r : RegIx), exec i s = .next t →
    namesDestination r i = false → (r = 0xF → writesFlag i = false) → t.reg r = s.reg r

/-- JP sets pc to its address argument modulo 4096, for any 16-bit argument, and changes nothing else.
(41_control_flow.md section 2 (R100), 30_encoding.md section 2 (R64)) -/
def Obligations.JumpSetsTheMaskedTarget : Prop :=
  ∀ (addr : Word) (s : State), ∃ t, exec (.jp addr) s = .next t ∧
    t.pc.toNat = addr.toNat % 4096 ∧ OnlyPc s t ∧ SameMemory s t

/-- JP V0 sets pc to the address argument modulo 4096 plus x[0], at most 0x10FE, and changes nothing
else. What is masked is the spec's decision D14 (log entry 14). (41_control_flow.md section 2
(R101), 90_conflicts.md C2, 92_eei_decisions.md D14) -/
def Obligations.JumpV0AddsRegisterZeroUnmasked : Prop :=
  ∀ (addr : Word) (s : State), ∃ t, exec (.jpV0 addr) s = .next t ∧
    t.pc.toNat = addr.toNat % 4096 + (s.reg 0).toNat ∧ t.pc.toNat ≤ 0x10FE ∧
    OnlyPc s t ∧ SameMemory s t

/-- With SP below 16 CALL writes pc + 2 to STACK[SP], raises SP by one and sets pc to its address
modulo 4096, every other stack entry and all other state unchanged. At SP = 16 it changes only
FAULT (StackOverflow) and FINFO (pc + 2). That the pushed pc is pc + 2 is decision D4, the latch
D9 (log entry 14). (41_control_flow.md section 2 (R102), 10_state.md section 4 (R17),
92_eei_decisions.md D4, D9) -/
def Obligations.CallPushesTheReturnAddress : Prop :=
  ∀ (addr : Word) (s : State),
    (∀ h : s.sp.val < 16, ∃ t, exec (.call addr) s = .next t ∧
      t.stack[s.sp.val]'h = s.pc + 2#16 ∧
      (∀ k : Fin 16, k.val ≠ s.sp.val → t.stack[k] = s.stack[k]) ∧
      t.sp.val = s.sp.val + 1 ∧ t.pc.toNat = addr.toNat % 4096 ∧
      OnlyStackPc s t ∧ SameMemory s t) ∧
    (s.sp.val = 16 →
      exec (.call addr) s = .next { s with fault := .stackOverflow, finfo := s.pc + 2#16 })

/-- With SP above 0 RET sets pc to STACK[SP-1], not masked, lowers SP by one and changes nothing else.
At SP = 0 it changes only FAULT (StackUnderflow) and FINFO (0). The latch is decision D9 (log
entry 14). (41_control_flow.md section 2 (R103), 10_state.md section 4 (R17), 92_eei_decisions.md
D9) -/
def Obligations.ReturnPopsTheTop : Prop :=
  ∀ s : State,
    (∀ h : 0 < s.sp.val, ∃ t, exec .ret s = .next t ∧
      t.pc = s.stack[s.sp.val - 1]'(by omega) ∧ t.sp.val = s.sp.val - 1 ∧ t.stack = s.stack ∧
      OnlyStackPc s t ∧ SameMemory s t) ∧
    (s.sp.val = 0 → exec .ret s = .next { s with fault := .stackUnderflow, finfo := 0#16 })

/-- SE Vx,byte sets pc to pc + 4 when x[X] = kk and else to pc + 2; SNE Vx,byte the other way round;
nothing else changes. (41_control_flow.md section 2 (R104, R105)) -/
def Obligations.SkipOnByteMovesPcByTwoOrFour : Prop :=
  ∀ (x : RegIx) (kk : Byte) (s : State),
    (∃ t, exec (.seByte x kk) s = .next t ∧
      t.pc = (if s.reg x = kk then s.pc + 4#16 else s.pc + 2#16) ∧ OnlyPc s t ∧ SameMemory s t) ∧
    (∃ t, exec (.sneByte x kk) s = .next t ∧
      t.pc = (if s.reg x ≠ kk then s.pc + 4#16 else s.pc + 2#16) ∧ OnlyPc s t ∧ SameMemory s t)

/-- SE Vx,Vy sets pc to pc + 4 when x[X] = x[Y] and else to pc + 2; SNE Vx,Vy the other way round;
nothing else changes. (R106, R107) -/
def Obligations.SkipOnRegisterMovesPcByTwoOrFour : Prop :=
  ∀ (x y : RegIx) (s : State),
    (∃ t, exec (.seReg x y) s = .next t ∧
      t.pc = (if s.reg x = s.reg y then s.pc + 4#16 else s.pc + 2#16) ∧
      OnlyPc s t ∧ SameMemory s t) ∧
    (∃ t, exec (.sneReg x y) s = .next t ∧
      t.pc = (if s.reg x ≠ s.reg y then s.pc + 4#16 else s.pc + 2#16) ∧
      OnlyPc s t ∧ SameMemory s t)

/-- If SP is below 16, CALL answers a state whose top of stack is pc + 2, and RET in any state with
that stack and depth answers pc + 2 and the depth before the call. (41_control_flow.md section 2
(R102, R103), 95_test_vectors.md S3) -/
def Obligations.CallThenReturnRestoresPc : Prop :=
  ∀ (addr : Word) (s : State), s.sp.val < 16 → ∃ t, exec (.call addr) s = .next t ∧
    t.readTop = .ok (s.pc + 2#16) ∧
    ∀ u : State, u.sp = t.sp → u.stack = t.stack →
      ∃ v, exec .ret u = .next v ∧ v.pc = s.pc + 2#16 ∧ v.sp = s.sp

/-- LD I sets I to its address argument modulo 4096, for any 16-bit argument, and pc to pc + 2, and
changes nothing else. (R120) -/
def Obligations.LoadIndexMasksTheAddress : Prop :=
  ∀ (addr : Word) (s : State), ∃ t, exec (.ldI addr) s = .next t ∧
    t.index.toNat = addr.toNat % 4096 ∧ t.pc = s.pc + 2#16 ∧ OnlyIndexPc s t ∧ SameMemory s t

/-- ADD I sets I to (I + x[X]) mod 2^16, not masked to 12 bits, and pc to pc + 2, and changes nothing
else, x[0xF] included. The modulus is the spec's decision D13 (log entry 14). (42_memory_index.md
section 2 (R121), 92_eei_decisions.md D13) -/
def Obligations.AddIndexWrapsAtSixteenBits : Prop :=
  ∀ (x : RegIx) (s : State), ∃ t, exec (.addI x) s = .next t ∧
    t.index.toNat = (s.index.toNat + (s.reg x).toNat) % 65536 ∧ t.pc = s.pc + 2#16 ∧
    OnlyIndexPc s t ∧ SameMemory s t

/-- LD F sets I to 5 * x[X] (at most 1275, so the 12-bit mask removes nothing), also when x[X] exceeds
15, and pc to pc + 2, and changes nothing else. (R122) -/
def Obligations.GlyphAddressIsFiveTimesTheByte : Prop :=
  ∀ (x : RegIx) (s : State), ∃ t, exec (.ldF x) s = .next t ∧
    t.index.toNat = 5 * (s.reg x).toNat ∧ t.pc = s.pc + 2#16 ∧ OnlyIndexPc s t ∧ SameMemory s t

/-- With canonical memory and I + X at most 0xFFF, LD [I],Vx stores x[i] at I + i for every i up to X,
advances I by X + 1 and pc by 2, and changes no other byte of memory and no other state. That
higher ranges fault is decision D8 (log entry 5), stated apart. (42_memory_index.md section 2
(R123), 20_memory.md sections 2 and 3 (R43, R46, R53), 92_eei_decisions.md D8) -/
def Obligations.BulkStoreWritesRegistersToMemory : Prop :=
  ∀ (x : RegIx) (s : State), s.memCanonical → s.index.toNat + x.val ≤ 0xFFF →
    ∃ t, exec (.storeRegs x) s = .next t ∧
      (∀ r, r ≤ x → t.byte (dataBase s + r.val) = s.reg r) ∧
      t.index.toNat = s.index.toNat + x.val + 1 ∧ t.pc = s.pc + 2#16 ∧
      SameMemoryOutside (dataBase s) (bulkCount x) s t ∧ OnlyMemIndexPc s t

/-- With I + X at most 0xFFF, LD Vx,[I] writes the byte at I + i to x[i] for every i up to X, advances
I by X + 1 and pc by 2, and changes no other register, no memory and no other state. That higher
ranges fault is decision D8 (log entry 5), stated apart. (42_memory_index.md section 2 (R124),
20_memory.md sections 2 and 3 (R43, R46, R53), 92_eei_decisions.md D8) -/
def Obligations.BulkLoadReadsRegistersFromMemory : Prop :=
  ∀ (x : RegIx) (s : State), s.index.toNat + x.val ≤ 0xFFF →
    ∃ t, exec (.loadRegs x) s = .next t ∧
      (∀ r, r ≤ x → t.reg r = s.byte (dataBase s + r.val)) ∧
      (∀ r, x < r → t.reg r = s.reg r) ∧
      t.index.toNat = s.index.toNat + x.val + 1 ∧ t.pc = s.pc + 2#16 ∧
      SameMemory s t ∧ OnlyRegsIndexPc s t

/-- With canonical memory and I + 2 at most 0xFFF, LD B,Vx stores x[X] div 100, (x[X] div 10) mod 10
and x[X] mod 10 at I, I+1 and I+2, advances pc by 2 and changes no other byte of memory and no
other state, I included. That higher ranges fault is decision D8 (log entry 5), stated apart.
(42_memory_index.md section 2 (R125), 20_memory.md sections 2 and 3 (R43, R53),
92_eei_decisions.md D8) -/
def Obligations.DecimalDigitsAreStored : Prop :=
  ∀ (x : RegIx) (s : State), s.memCanonical → s.index.toNat + 2 ≤ 0xFFF →
    ∃ t, exec (.ldB x) s = .next t ∧
      (t.byte (dataBase s)).toNat = (s.reg x).toNat / 100 ∧
      (t.byte (dataBase s + 1)).toNat = (s.reg x).toNat / 10 % 10 ∧
      (t.byte (dataBase s + 2)).toNat = (s.reg x).toNat % 10 ∧
      t.pc = s.pc + 2#16 ∧ SameMemoryOutside (dataBase s) 3 s t ∧ OnlyMemPc s t

/-- LD [I],Vx and LD Vx,[I] with I + X above 0xFFF, and LD B,Vx with I + 2 above 0xFFF, change only
FAULT (AddressFault) and FINFO (I if I is above 0xFFF, else 0x1000). The fault is decision D8 (log
entry 5), its form D9 (log entry 14). (20_memory.md section 2 (R53), 42_memory_index.md section 2
(R123, R124, R125), 92_eei_decisions.md D8, D9) -/
def Obligations.AccessAboveMemoryWritesNothing : Prop :=
  ∀ (x : RegIx) (s : State),
    (0xFFF < s.index.toNat + x.val →
      exec (.storeRegs x) s =
        .next { s with fault := .addressFault, finfo := lowestOffending s } ∧
      exec (.loadRegs x) s =
        .next { s with fault := .addressFault, finfo := lowestOffending s }) ∧
    (0xFFF < s.index.toNat + 2 →
      exec (.ldB x) s = .next { s with fault := .addressFault, finfo := lowestOffending s })

/-- With canonical memory and I + X at most 0xFFF, LD [I],Vx answers a next state, and LD Vx,[I] in
any state with that memory (its FONT included, log entry 2) and the old I gives registers 0..X the
values stored, both leaving I advanced by X + 1. (42_memory_index.md section 2 (R123, R124),
95_test_vectors.md S10) -/
def Obligations.BulkStoreThenLoadRoundTrips : Prop :=
  ∀ (x : RegIx) (s : State), s.memCanonical → s.index.toNat + x.val ≤ 0xFFF →
    ∃ t, exec (.storeRegs x) s = .next t ∧ t.index.toNat = s.index.toNat + x.val + 1 ∧
      ∀ u : State, u.mem = t.mem → u.font = t.font → u.index = s.index →
        ∃ v, exec (.loadRegs x) u = .next v ∧ (∀ r, r ≤ x → v.reg r = s.reg r) ∧
          v.index.toNat = s.index.toNat + x.val + 1

/-- With canonical memory and I + X at most 0xFFF, after LD [I],Vx a fetch at I + r, for two
neighbouring stored registers r and r+1, reads the word made of their values: self-modifying code
needs no barrier. (20_memory.md section 6 (R50, R52), 70_reset_and_hazards.md section 3 (R196)) -/
def Obligations.StoredBytesAreFetched : Prop :=
  ∀ (x r r' : RegIx) (s : State), s.memCanonical → s.index.toNat + x.val ≤ 0xFFF →
    r'.val = r.val + 1 → r' ≤ x →
    ∃ t, exec (.storeRegs x) s = .next t ∧
      ∀ u : State, u.mem = t.mem → u.font = t.font → u.pc.toNat = dataBase s + r.val →
        fetch u = .ok (wordOfBytes (s.reg r) (s.reg r'))

/-- LD DT,Vx sets DT to x[X], LD ST,Vx sets ST to x[X], LD Vx,DT sets x[X] to DT; each sets pc to pc +
2 and changes nothing else. (43_timers_random_display.md section 1 (R140, R141, R142)) -/
def Obligations.TimerInstructionsMoveOneByte : Prop :=
  ∀ (x : RegIx) (s : State),
    exec (.ldDtVx x) s = .next { s with dt := s.reg x, pc := s.pc + 2#16 } ∧
    exec (.ldStVx x) s = .next { s with st := s.reg x, pc := s.pc + 2#16 } ∧
    ∃ t, exec (.ldVxDt x) s = .next t ∧ t.reg x = s.dt ∧
      t.pc = s.pc + 2#16 ∧ SameRegsExcept [x] s t ∧ OnlyRegsPc s t ∧ SameMemory s t

/-- If an instruction other than LD DT,Vx answers a next state, DT is unchanged; other than LD ST,Vx,
ST is unchanged: no instruction decrements a timer. (10_state.md section 5 (R19, R20),
70_reset_and_hazards.md section 3 (R197)) -/
def Obligations.TimersChangeOnlyByTheirWriters : Prop :=
  ∀ (i : Instr) (s t : State), exec i s = .next t →
    ((∀ x, i ≠ .ldDtVx x) → t.dt = s.dt) ∧ ((∀ x, i ≠ .ldStVx x) → t.st = s.st)

/-- Two states that differ only in ST give next states that differ at most in ST, under every
instruction and at every step of the machine, whichever move is next, a fault of the fetch or
decode and the host's moves included; no instruction but LD ST,Vx, which writes x[X] there,
changes ST; and a tick, in every state, lowers ST by one unless it is zero, where it stays
(decision D11, R176's general knowledge, log entry 14). (10_state.md section 5 (R20),
60_exceptions.md section 5 (R176), 92_eei_decisions.md D11) -/
def Obligations.SoundTimerIsNeverRead : Prop :=
  ∀ (s : State) (v : Byte),
    (∀ t, step s = .next t →
      ∃ u, step { s with st := v } = .next u ∧ { u with st := 0#8 } = { t with st := 0#8 }) ∧
    (∀ (i : Instr) (t : State), exec i s = .next t →
      ((∀ x, i ≠ .ldStVx x) → t.st = s.st) ∧
      (∀ x, i = .ldStVx x → t.st = s.reg x) ∧
      ∃ u, exec i { s with st := v } = .next u ∧ { u with st := 0#8 } = { t with st := 0#8 }) ∧
    s.tick.st.toNat = s.st.toNat - 1 ∧
    { State.tick { s with st := v } with st := 0#8 } = { s.tick with st := 0#8 }

/-- RND writes to x[X] the bitwise and of the draw and kk, takes the next draw of the random input (a
free value: nothing is known of it, log entry 4), sets pc to pc + 2 and changes nothing else; so
x[X] has no bit outside kk. (43_timers_random_display.md section 2 (R145, R146),
92_eei_decisions.md D12) -/
def Obligations.RandomByteIsADrawUnderTheMask : Prop :=
  ∀ (x : RegIx) (kk : Byte) (s : State), ∃ t, exec (.rnd x kk) s = .next t ∧
    t.reg x = Config.rnd8 s.draws &&& kk ∧ t.reg x &&& ~~~kk = 0#8 ∧ t.draws = s.draws + 1 ∧
    t.pc = s.pc + 2#16 ∧ SameRegsExcept [x] s t ∧ SameMemory s t ∧
    t = { s with regs := t.regs, pc := t.pc, draws := t.draws }

/-- After CLS every one of the 2048 display cells reads zero, pc is pc + 2, and nothing else changed.
(R148) -/
def Obligations.ClearScreenZeroesTheDisplay : Prop :=
  ∀ s : State, ∃ t, exec .cls s = .next t ∧ (∀ k, k < 2048 → t.readDisp k = .ok 0#8) ∧
    t.pc = s.pc + 2#16 ∧ SameMemory s t ∧ t = { s with disp := t.disp, pc := t.pc }

/-- If an instruction answers a next state: memory is unchanged unless it is LD [I],Vx or LD B,Vx; the
display unless it is CLS; the stack entries unless CALL; the depth unless CALL or RET; I unless LD
I, ADD I, LD F, LD [I],Vx or LD Vx,[I]; FAULT and FINFO unless CALL, RET, LD [I],Vx, LD Vx,[I] or
LD B,Vx; the count of draws (the model's own, log entry 4) unless RND; and the started bit
(decision D15, log entry 14), the parameter FONT (log entry 2) and the moves to come (the model's
own, log entry 3) never change. Data registers and timers have statements of their own
(RegistersChangeOnlyByTheirWriters, TimersChangeOnlyByTheirWriters). (10_state.md sections 2, 4,
7, 8, 11 and 13 (R13, R16, R25, R27, R32, R38), 20_memory.md section 1 (R40),
43_timers_random_display.md section 2 (R146), 60_exceptions.md section 1 (R160),
92_eei_decisions.md D9, D15) -/
def Obligations.StateChangesOnlyByItsWriters : Prop :=
  ∀ (i : Instr) (s t : State), exec i s = .next t →
    ((∀ x, i ≠ .storeRegs x ∧ i ≠ .ldB x) → t.mem = s.mem) ∧
    (i ≠ .cls → t.disp = s.disp) ∧
    ((∀ a, i ≠ .call a) → t.stack = s.stack) ∧
    (i ≠ .ret → (∀ a, i ≠ .call a) → t.sp = s.sp) ∧
    ((∀ a, i ≠ .ldI a) → (∀ x, i ≠ .addI x ∧ i ≠ .ldF x ∧ i ≠ .storeRegs x ∧ i ≠ .loadRegs x) →
      t.index = s.index) ∧
    (i ≠ .ret → (∀ a, i ≠ .call a) → (∀ x, i ≠ .storeRegs x ∧ i ≠ .loadRegs x ∧ i ≠ .ldB x) →
      t.fault = s.fault ∧ t.finfo = s.finfo) ∧
    ((∀ x kk, i ≠ .rnd x kk) → t.draws = s.draws) ∧
    t.started = s.started ∧ t.font = s.font ∧ t.agenda = s.agenda ∧ t.cycle = s.cycle

/-- Two states that differ only in stack entries at or above SP give, at every step, next states that
differ only in such entries, and their top-of-stack reads agree; so the reset values the model
gives those entries (log entry 1) matter to nothing. (10_state.md section 4 (R17) and section 12
(R30), 93_implementation_defined.md U7) -/
def Obligations.DeadStackEntriesAreUnobservable : Prop :=
  ∀ s s' : State, s' = { s with stack := s'.stack } →
    (∀ k : Fin 16, k.val < s.sp.val → s'.stack[k] = s.stack[k]) →
    s'.readTop = s.readTop ∧
    ∀ t, step s = .next t → ∃ t', step s' = .next t' ∧ t' = { t with stack := t'.stack } ∧
      ∀ k : Fin 16, k.val < t.sp.val → t'.stack[k] = t.stack[k]

/-- For every schedule of moves (any interleaving of dispatcher, ticks and host) under which no
running dispatcher executes LD DT,Vx: if the schedule is fair, that is, ticks keep arriving
(R177's fairness assumption), DT is zero at some moment of the run; and if it holds no tick and no
HostReset, DT is never changed, so a wait for it never ends. That a tick leaves zero at zero is
decision D11 (log entry 14); schedules stand for the free order of moves (log entry 3).
(60_exceptions.md section 5 (R176, R177), 70_reset_and_hazards.md section 3 (R197),
92_eei_decisions.md D11) -/
def Obligations.FairTicksRunTheDelayTimerOut : Prop :=
  ∀ (σ : Schedule) (s : State),
    (∀ n x w, σ n = .dispatch → (runUnder σ n s).running = true →
      fetch (runUnder σ n s) = .ok w → decodeWord w ≠ .ok (.ldDtVx x)) →
    (Fair σ → ∃ n, (runUnder σ n s).dt = 0#8) ∧
    ((∀ n, σ n ≠ .tick ∧ σ n ≠ .hostReset) → ∀ n, (runUnder σ n s).dt = s.dt)
end

