-- ==== Sys2Proof/Laws/Decode.lean ====
section
/-!
SUPPORT. The fields of the words the encoder builds, and the fields of a word put together again.
-/
namespace Sys2Proof

/-! ### Words and their bytes -/

@[simp] theorem wordOfBytes_high_low (w : Word) : wordOfBytes (highByte w) (lowByte w) = w := by
  apply BitVec.eq_of_getLsbD_eq
  intro k hk
  simp only [wordOfBytes, highByte, lowByte, BitVec.getLsbD_append, BitVec.getLsbD_extractLsb']
  by_cases h : k < 8
  · simp [h]
  · simp [h, show k - 8 < 8 by omega, show 8 + (k - 8) = k by omega]

@[simp] theorem highByte_wordOfBytes (hi lo : Byte) : highByte (wordOfBytes hi lo) = hi := by
  apply BitVec.eq_of_getLsbD_eq
  intro k hk
  simp only [wordOfBytes, highByte, BitVec.getLsbD_append, BitVec.getLsbD_extractLsb']
  simp [hk]

@[simp] theorem lowByte_wordOfBytes (hi lo : Byte) : lowByte (wordOfBytes hi lo) = lo := by
  apply BitVec.eq_of_getLsbD_eq
  intro k hk
  simp only [wordOfBytes, lowByte, BitVec.getLsbD_append, BitVec.getLsbD_extractLsb']
  simp [hk]

/-- The decoder on a word's two bytes is the decoder on the word. -/
theorem decode_bytes (w : Word) (rest : List Byte) :
    decode (highByte w :: lowByte w :: rest) = (decodeWord w).map fun i => (i, rest) := by
  simp [decode]

/-! ### The fields of the formats (30_encoding.md R61, R62) -/

theorem nibble_eq (w : Word) (k : Nat) : (nibble w k).val = w.toNat / 2 ^ (4 * k) % 16 := by
  simp [nibble, Nat.shiftRight_eq_div_pow]

theorem ofNibbles_toNat (a b c d : Fin 16) :
    (ofNibbles a b c d).toNat = a.val * 4096 + b.val * 256 + c.val * 16 + d.val := by
  have hb := b.isLt; have hc := c.isLt; have hd := d.isLt
  simp only [ofNibbles, BitVec.toNat_append, BitVec.toNat_ofFin]
  rw [Nat.shiftLeft_add_eq_or_of_lt (by omega) _ |>.symm,
    Nat.shiftLeft_add_eq_or_of_lt (by omega) _ |>.symm,
    Nat.shiftLeft_add_eq_or_of_lt (by omega) _ |>.symm]
  simp only [Nat.shiftLeft_eq]
  omega

theorem formatXK_toNat (op : Fin 16) (x : RegIx) (kk : Byte) :
    (formatXK op x kk).toNat = op.val * 4096 + x.val * 256 + kk.toNat := by
  have hx := x.isLt; have hk := kk.isLt
  simp only [formatXK, BitVec.toNat_append, BitVec.toNat_ofFin]
  rw [Nat.shiftLeft_add_eq_or_of_lt (by omega) _ |>.symm,
    Nat.shiftLeft_add_eq_or_of_lt (by omega) _ |>.symm]
  simp only [Nat.shiftLeft_eq]
  omega

theorem formatA_toNat (op : Fin 16) (addr : Word) :
    (formatA op addr).toNat = op.val * 4096 + addr.toNat % 4096 := by
  have := (addr.extractLsb' 0 12).isLt
  simp only [formatA, BitVec.toNat_append, BitVec.toNat_ofFin]
  rw [Nat.shiftLeft_add_eq_or_of_lt (by omega) _ |>.symm]
  simp [Nat.shiftLeft_eq, BitVec.extractLsb'_toNat]

/-- The four nibbles of a format `XY` word are the four it was made of. -/
@[simp] theorem nibble_ofNibbles (a b c d : Fin 16) :
    nibble (ofNibbles a b c d) 3 = a ∧ nibble (ofNibbles a b c d) 2 = b ∧
      nibble (ofNibbles a b c d) 1 = c ∧ nibble (ofNibbles a b c d) 0 = d := by
  have ha := a.isLt; have hb := b.isLt; have hc := c.isLt; have hd := d.isLt
  refine ⟨?_, ?_, ?_, ?_⟩ <;> apply Fin.ext <;> rw [nibble_eq, ofNibbles_toNat] <;> omega

/-- The opcode, register and byte of a format `XK` or `XF` word. -/
@[simp] theorem fields_formatXK (op : Fin 16) (x : RegIx) (kk : Byte) :
    nibble (formatXK op x kk) 3 = op ∧ nibble (formatXK op x kk) 2 = x ∧
      lowByte (formatXK op x kk) = kk := by
  have ho := op.isLt; have hx := x.isLt; have hk := kk.isLt
  refine ⟨?_, ?_, ?_⟩
  · apply Fin.ext; rw [nibble_eq, formatXK_toNat]; omega
  · apply Fin.ext; rw [nibble_eq, formatXK_toNat]; omega
  · apply BitVec.eq_of_toNat_eq
    rw [lowByte, BitVec.extractLsb'_toNat, formatXK_toNat, Nat.shiftRight_zero]
    omega

/-- The opcode of a format `A` word, and its address when it fits the field. -/
theorem fields_formatA (op : Fin 16) (addr : Word) (h : addr.toNat < 0x1000) :
    nibble (formatA op addr) 3 = op ∧ fieldNnn (formatA op addr) = addr := by
  have ho := op.isLt
  refine ⟨?_, ?_⟩
  · apply Fin.ext; rw [nibble_eq, formatA_toNat]; omega
  · apply BitVec.eq_of_toNat_eq
    rw [fieldNnn, BitVec.toNat_setWidth, BitVec.extractLsb'_toNat, formatA_toNat, Nat.shiftRight_zero]
    omega

end Sys2Proof
end

