-- ==== Sys2Proof/Laws/Memory.lean ====
section
/-!
SUPPORT. Memory: read after write, the canonical form is kept, and equal canonical memories are
equal data.
-/
namespace Sys2Proof.Machine

variable {font : Font}

@[simp] theorem Memory.get_nil (a : Nat) : Memory.get font [] a = resetByte font a := rfl

theorem Memory.get_cell (c : Nat) (v : Byte) (m : Memory) (a : Nat) :
    Memory.get font ((c, v) :: m) a = if a = c then v else Memory.get font m a := rfl

/-! ### Reading from a canonical list -/

theorem Memory.wfFrom_cell (lo c : Nat) (v : Byte) (m : Memory) :
    Memory.wfFrom font lo ((c, v) :: m) = true ↔
      lo ≤ c ∧ c < 4096 ∧ v ≠ resetByte font c ∧ Memory.wfFrom font (c + 1) m = true := by
  simp [Memory.wfFrom, and_assoc]

theorem Memory.wfFrom_mono {lo lo' : Nat} (h : lo ≤ lo') {m : Memory}
    (hm : Memory.wfFrom font lo' m = true) : Memory.wfFrom font lo m = true := by
  match m with
  | [] => rfl
  | (c, v) :: m =>
    rw [Memory.wfFrom_cell] at hm ⊢
    exact ⟨by omega, hm.2⟩

/-- Below a canonical list's first address every byte reads as after reset. -/
theorem Memory.get_below {lo a : Nat} {m : Memory} (hm : Memory.wfFrom font lo m = true) (h : a < lo) :
    m.get font a = resetByte font a := by
  induction m generalizing lo with
  | nil => rfl
  | cons cell m ih =>
    obtain ⟨c, v⟩ := cell
    rw [Memory.wfFrom_cell] at hm
    rw [Memory.get_cell, if_neg (by omega)]
    exact ih hm.2.2.2 (by omega)

/-! ### Writing one byte -/

theorem Memory.get_cons (m : Memory) (a : Nat) (b : Byte) (r : Nat)
    (h : r = a → b = resetByte font a → m.get font a = resetByte font a) :
    (Memory.cons font a b m).get font r = if r = a then b else m.get font r := by
  unfold Memory.cons
  by_cases hr : r = a
  · subst hr
    by_cases hb : b = resetByte font r
    · simp [hb, h rfl hb]
    · simp [hb, Memory.get_cell]
  · by_cases hb : b = resetByte font a <;> simp [hb, hr, Memory.get_cell]

/-- A read after a write gives the byte written at its address and the old byte elsewhere
(20_memory.md R50). -/
theorem Memory.get_put {lo : Nat} {m : Memory} (hm : Memory.wfFrom font lo m = true) (a r : Nat) (b : Byte) :
    (m.put font a b).get font r = if r = a then b else m.get font r := by
  induction m generalizing lo with
  | nil => exact Memory.get_cons [] a b r fun _ _ => rfl
  | cons cell m ih =>
    obtain ⟨c, v⟩ := cell
    have hc := (Memory.wfFrom_cell lo c v m).1 hm
    unfold Memory.put
    split
    · next h =>
      refine Memory.get_cons _ a b r fun _ _ => ?_
      rw [Memory.get_cell, if_neg (by omega)]
      exact Memory.get_below hc.2.2.2 (by omega)
    · split
      · next h =>
        subst h
        rw [Memory.get_cons _ a b r fun _ _ => Memory.get_below hc.2.2.2 (by omega), Memory.get_cell]
        by_cases hr : r = a <;> simp [hr]
      · next h1 h2 =>
        rw [Memory.get_cell, Memory.get_cell, ih hc.2.2.2]
        by_cases hr : r = c
        · simp [hr, Ne.symm h2]
        · simp [hr]

theorem Memory.cons_wfFrom {lo a : Nat} {b : Byte} {m : Memory} (hlo : lo ≤ a) (ha : a < 4096)
    (hm : Memory.wfFrom font (a + 1) m = true) : Memory.wfFrom font lo (Memory.cons font a b m) = true := by
  unfold Memory.cons
  split
  · exact Memory.wfFrom_mono (by omega) hm
  · next h => exact (Memory.wfFrom_cell lo a b m).2 ⟨hlo, ha, h, hm⟩

theorem Memory.put_wfFrom {lo a : Nat} {b : Byte} {m : Memory} (hlo : lo ≤ a) (ha : a < 4096)
    (hm : Memory.wfFrom font lo m = true) : Memory.wfFrom font lo (m.put font a b) = true := by
  induction m generalizing lo with
  | nil => exact Memory.cons_wfFrom hlo ha rfl
  | cons cell m ih =>
    obtain ⟨c, v⟩ := cell
    have hc := (Memory.wfFrom_cell lo c v m).1 hm
    unfold Memory.put
    split
    · next h =>
      exact Memory.cons_wfFrom hlo ha ((Memory.wfFrom_cell _ c v m).2 ⟨by omega, hc.2⟩)
    · split
      · next h => subst h; exact Memory.cons_wfFrom hlo ha hc.2.2.2
      · next h1 h2 =>
        exact (Memory.wfFrom_cell lo c v _).2 ⟨hc.1, hc.2.1, hc.2.2.1, ih (by omega) hc.2.2.2⟩

/-- A store below 4096 keeps the canonical form. -/
theorem Memory.put_wf {m : Memory} (hm : m.wf font = true) {a : Nat} (ha : a < 4096) (b : Byte) :
    (m.put font a b).wf font = true := Memory.put_wfFrom (Nat.zero_le a) ha hm

/-- Memory at reset is canonical, whatever FONT. -/
theorem Memory.reset_wf : (State.resetWith font).mem.wf font = true := rfl

/-! ### Writing several bytes -/

theorem Memory.putBytes_wf {m : Memory} (hm : m.wf font = true) (a : Nat) (bs : List Byte)
    (ha : a + bs.length ≤ 4096) : (m.putBytes font a bs).wf font = true := by
  induction bs generalizing m a with
  | nil => exact hm
  | cons b bs ih =>
    simp only [List.length_cons] at ha
    exact ih (Memory.put_wf hm (by omega) b) (a + 1) (by omega)

/-- A read after a run of byte stores: the byte stored there, else the old byte. -/
theorem Memory.get_putBytes {m : Memory} (hm : m.wf font = true) (a : Nat) (bs : List Byte)
    (ha : a + bs.length ≤ 4096) (r : Nat) :
    (m.putBytes font a bs).get font r = if a ≤ r then bs.getD (r - a) (m.get font r) else m.get font r := by
  induction bs generalizing m a with
  | nil => simp [Memory.putBytes]
  | cons b bs ih =>
    simp only [List.length_cons] at ha
    rw [Memory.putBytes, ih (Memory.put_wf hm (by omega) b) (a + 1) (by omega),
      Memory.get_put hm]
    rcases Nat.lt_trichotomy r a with h | h | h
    · simp [show ¬a + 1 ≤ r by omega, show ¬a ≤ r by omega, show r ≠ a by omega]
    · subst h; simp
    · have e : r - a = (r - (a + 1)) + 1 := by omega
      simp [show a + 1 ≤ r by omega, show a ≤ r by omega, show r ≠ a by omega, e]

/-! ### Equal contents, equal data -/

theorem Memory.ext_from {lo : Nat} {m n : Memory} (hm : Memory.wfFrom font lo m = true)
    (hn : Memory.wfFrom font lo n = true) (h : ∀ a, m.get font a = n.get font a) : m = n := by
  induction m generalizing lo n with
  | nil =>
    match n with
    | [] => rfl
    | (d, w) :: n =>
      have hd := (Memory.wfFrom_cell lo d w n).1 hn
      have := h d
      rw [Memory.get_cell, if_pos rfl] at this
      exact absurd this.symm hd.2.2.1
  | cons cell m ih =>
    obtain ⟨c, v⟩ := cell
    have hc := (Memory.wfFrom_cell lo c v m).1 hm
    have hcv : Memory.get font ((c, v) :: m) c = v := by rw [Memory.get_cell, if_pos rfl]
    match n with
    | [] => exact absurd (hcv.symm.trans (h c)) hc.2.2.1
    | (d, w) :: n =>
      have hd := (Memory.wfFrom_cell lo d w n).1 hn
      have hdw : Memory.get font ((d, w) :: n) d = w := by rw [Memory.get_cell, if_pos rfl]
      have hcd : c = d := by
        rcases Nat.lt_trichotomy c d with hlt | heq | hgt
        · have e := h c
          rw [hcv, Memory.get_cell, if_neg (by omega), Memory.get_below hd.2.2.2 (by omega)] at e
          exact absurd e hc.2.2.1
        · exact heq
        · have e := h d
          rw [hdw, Memory.get_cell, if_neg (by omega), Memory.get_below hc.2.2.2 (by omega)] at e
          exact absurd e.symm hd.2.2.1
      subst hcd
      have hvw : v = w := hcv.symm.trans ((h c).trans hdw)
      subst hvw
      refine congrArg _ (ih hc.2.2.2 hd.2.2.2 fun a => ?_)
      by_cases ha : a = c
      · subst ha
        rw [Memory.get_below hc.2.2.2 (by omega), Memory.get_below hd.2.2.2 (by omega)]
      · have e := h a
        rwa [Memory.get_cell, Memory.get_cell, if_neg ha, if_neg ha] at e

/-- Two canonical memories with the same bytes are the same list. -/
theorem Memory.ext_of_wf {m n : Memory} (hm : m.wf font = true) (hn : n.wf font = true)
    (h : ∀ a, m.get font a = n.get font a) : m = n := Memory.ext_from hm hn h

end Sys2Proof.Machine
end

