-- ==== Sys2Proof/Laws/Ops.lean ====
section
/-!
SUPPORT. For each shared operation, everything it can do, said once.
-/
namespace Sys2Proof.Machine

/-! ### The access primitives -/

theorem memRead_of_le {a : Nat} (h : a ≤ 0xFFF) (s : State) : memRead s a = .ok (s.byte a) := by
  simp [memRead, show ¬a > 0xFFF by omega]

theorem memRead_of_gt {a : Nat} (h : 0xFFF < a) (s : State) :
    memRead s a = .error ⟨.addressFault, a⟩ := by
  simp [memRead, h]

theorem memWrite_of_le {a : Nat} (h : a ≤ 0xFFF) (s : State) (v : Byte) :
    memWrite s a v = .ok (s.storeBytes a [v]) := by
  simp [memWrite, show ¬a > 0xFFF by omega]

theorem memWrite_of_gt {a : Nat} (h : 0xFFF < a) (s : State) (v : Byte) :
    memWrite s a v = .error ⟨.addressFault, a⟩ := by
  simp [memWrite, h]

/-- A two-byte read: a big-endian word up to 0xFFE, else the first offending address
(20_memory.md R44). -/
theorem memReadWord_eq (s : State) (a : Nat) :
    memReadWord s a =
      if a ≤ 0xFFE then .ok (wordOfBytes (s.byte a) (s.byte (a + 1)))
      else .error ⟨.addressFault, max a 0x1000⟩ := by
  unfold memReadWord
  rcases Nat.lt_trichotomy a 0xFFF with h | h | h
  · rw [memRead_of_le (by omega), memRead_of_le (by omega), if_pos (by omega)]
  · subst h
    rw [memRead_of_le (by omega), memRead_of_gt (by omega), if_neg (by omega)]
    rfl
  · rw [memRead_of_gt h, if_neg (by omega), Nat.max_eq_left (by omega)]

/-- The range check passes exactly when the last address is in memory (20_memory.md R53). -/
theorem checkRange_of_le {base count : Nat} (h : base + (count - 1) ≤ 0xFFF) :
    checkRange base count = .ok () := by
  simp [checkRange, show ¬base + (count - 1) > 0xFFF by omega]

theorem checkRange_of_gt {base count : Nat} (h : 0xFFF < base + (count - 1)) :
    checkRange base count = .error ⟨.addressFault, max base 0x1000⟩ := by
  simp [checkRange, h]

/-! ### Storing bytes -/

/-- A read after a run of byte stores gives the byte stored there, else the old byte (20_memory.md
R46, R50). -/
theorem State.byte_storeBytes {s : State} (hm : s.mem.wf s.font = true) (a : Nat) (bs : List Byte)
    (ha : a + bs.length ≤ 4096) (r : Nat) :
    (s.storeBytes a bs).byte r = if a ≤ r then bs.getD (r - a) (s.byte r) else s.byte r :=
  Memory.get_putBytes hm a bs ha r

/-- Stores below 4096 keep memory canonical (20_memory.md R42). -/
theorem State.storeBytes_wf {s : State} (hm : s.mem.wf s.font = true) (a : Nat) (bs : List Byte)
    (ha : a + bs.length ≤ 4096) : (s.storeBytes a bs).mem.wf (s.storeBytes a bs).font = true :=
  Memory.putBytes_wf hm a bs ha

/-- Right after reset a byte of memory is FONT's below 80, else zero (10_state.md R30). -/
theorem State.byte_resetWith (font : Font) (a : Nat) :
    (State.resetWith font).byte a = if h : a < 80 then font[a] else 0x00#8 := rfl

/-! ### The call stack -/

/-- A push below capacity writes the slot at SP and raises SP (10_state.md R17). -/
theorem State.push_of_lt {s : State} {v : Word} (h : s.sp.val < 16) :
    s.push v =
      .ok { s with stack := s.stack.set s.sp.val v h, sp := ⟨s.sp.val + 1, by omega⟩ } := by
  simp [State.push, h]

theorem State.push_of_full {s : State} {v : Word} (h : ¬s.sp.val < 16) :
    s.push v = .error ⟨.stackOverflow, v.toNat⟩ := by
  simp [State.push, h]

/-- A pop of a nonempty stack gives the top and lowers SP (10_state.md R17). -/
theorem State.pop_of_pos {s : State} (h : 0 < s.sp.val) :
    s.pop = .ok (s.stack[s.sp.val - 1], { s with sp := ⟨s.sp.val - 1, by omega⟩ }) := by
  simp [State.pop, h]

theorem State.pop_of_empty {s : State} (h : ¬0 < s.sp.val) :
    s.pop = .error ⟨.stackUnderflow, 0⟩ := by
  simp [State.pop, h]

/-! ### An instruction's end -/

/-- Whatever an instruction's end answers is a next state: the state made, or the fault taken in
the state before (60_exceptions.md R166). -/
theorem settle_eq (s : State) (r : Except Raised State) :
    settle s r = .next (match r with | .ok t => t | .error e => s.raise e) := by
  cases r <;> rfl

/-! ### Fetching -/

/-- The fetch succeeds if and only if the pc is at most 0xFFE (20_memory.md R44). -/
theorem fetch_eq (s : State) :
    fetch s =
      if s.pc.toNat ≤ 0xFFE then .ok (wordOfBytes (s.byte s.pc.toNat) (s.byte (s.pc.toNat + 1)))
      else .error ⟨.addressFault, max s.pc.toNat 0x1000⟩ := memReadWord_eq _ _

/-- A dispatcher step that is not enabled changes nothing (30_encoding.md R66). -/
theorem dispatcherStep_of_not_running {s : State} (h : s.running = false) :
    dispatcherStep s = .next s := by
  simp [dispatcherStep, h]

theorem dispatcherStep_of_running {s : State} (h : s.running = true) :
    dispatcherStep s = fetchExecute s := by
  simp [dispatcherStep, h]

end Sys2Proof.Machine
end

