-- ==== Sys2Proof/Laws/PerInstr.lean ====
section
/-!
SUPPORT. What holds of every instruction as syntax, one lemma per constructor: its word lies in its
own row of the opcode map (30_encoding.md R65).
-/
namespace Sys2Proof.Laws

/-- The word the encoder builds matches the instruction's row (30_encoding.md R65). -/
def TableRow.Statement (i : Instr) : Prop := (rowOf i).accepts (encode i) = true

/-! ### What each mask keeps of each format -/

/-- The mask F000 keeps of a format `A` word its opcode. -/
theorem formatA_mask (op : Fin 16) (addr : Word) :
    formatA op addr &&& 0xF000#16 = ofNibbles op 0 0 0 := by
  apply BitVec.eq_of_getLsbD_eq
  intro k hk
  simp only [formatA, ofNibbles, BitVec.getLsbD_and, BitVec.getLsbD_append, BitVec.getLsbD_extractLsb']
  interval_cases k <;> simp

/-- The mask F000 keeps of a format `XK` word its opcode. -/
theorem formatXK_mask (op : Fin 16) (x : RegIx) (kk : Byte) :
    formatXK op x kk &&& 0xF000#16 = ofNibbles op 0 0 0 := by
  apply BitVec.eq_of_getLsbD_eq
  intro k hk
  simp only [formatXK, ofNibbles, BitVec.getLsbD_and, BitVec.getLsbD_append]
  interval_cases k <;> simp

/-- The mask F0FF keeps of a format `XF` word its opcode and function byte. -/
theorem formatXF_mask (op : Fin 16) (x : RegIx) (kk : Byte) :
    formatXK op x kk &&& 0xF0FF#16 = formatXK op 0 kk := by
  apply BitVec.eq_of_getLsbD_eq
  intro k hk
  simp only [formatXK, BitVec.getLsbD_and, BitVec.getLsbD_append]
  interval_cases k <;> simp

/-- The mask F00F keeps of a format `XY` word its opcode and function nibble. -/
theorem ofNibbles_mask (op : Fin 16) (x y fn : Fin 16) :
    ofNibbles op x y fn &&& 0xF00F#16 = ofNibbles op 0 0 fn := by
  apply BitVec.eq_of_getLsbD_eq
  intro k hk
  simp only [ofNibbles, BitVec.getLsbD_and, BitVec.getLsbD_append]
  interval_cases k <;> simp

/-! ### One lemma per constructor -/

theorem TableRow.cls : TableRow.Statement (.cls) := by
  unfold TableRow.Statement; decide
theorem TableRow.ret : TableRow.Statement (.ret) := by
  unfold TableRow.Statement; decide
theorem TableRow.jp (addr : Word) : TableRow.Statement (.jp addr) := by
  simp only [TableRow.Statement, OpcodeRow.accepts, rowOf, encode, formatA_mask]; decide
theorem TableRow.call (addr : Word) : TableRow.Statement (.call addr) := by
  simp only [TableRow.Statement, OpcodeRow.accepts, rowOf, encode, formatA_mask]; decide
theorem TableRow.seByte (x : RegIx) (kk : Byte) : TableRow.Statement (.seByte x kk) := by
  simp only [TableRow.Statement, OpcodeRow.accepts, rowOf, encode, formatXK_mask]; decide
theorem TableRow.sneByte (x : RegIx) (kk : Byte) : TableRow.Statement (.sneByte x kk) := by
  simp only [TableRow.Statement, OpcodeRow.accepts, rowOf, encode, formatXK_mask]; decide
theorem TableRow.seReg (x y : RegIx) : TableRow.Statement (.seReg x y) := by
  simp only [TableRow.Statement, OpcodeRow.accepts, rowOf, encode, ofNibbles_mask]; decide
theorem TableRow.ldByte (x : RegIx) (kk : Byte) : TableRow.Statement (.ldByte x kk) := by
  simp only [TableRow.Statement, OpcodeRow.accepts, rowOf, encode, formatXK_mask]; decide
theorem TableRow.addByte (x : RegIx) (kk : Byte) : TableRow.Statement (.addByte x kk) := by
  simp only [TableRow.Statement, OpcodeRow.accepts, rowOf, encode, formatXK_mask]; decide
theorem TableRow.ldReg (x y : RegIx) : TableRow.Statement (.ldReg x y) := by
  simp only [TableRow.Statement, OpcodeRow.accepts, rowOf, encode, ofNibbles_mask]; decide
theorem TableRow.or (x y : RegIx) : TableRow.Statement (.or x y) := by
  simp only [TableRow.Statement, OpcodeRow.accepts, rowOf, encode, ofNibbles_mask]; decide
theorem TableRow.and (x y : RegIx) : TableRow.Statement (.and x y) := by
  simp only [TableRow.Statement, OpcodeRow.accepts, rowOf, encode, ofNibbles_mask]; decide
theorem TableRow.xor (x y : RegIx) : TableRow.Statement (.xor x y) := by
  simp only [TableRow.Statement, OpcodeRow.accepts, rowOf, encode, ofNibbles_mask]; decide
theorem TableRow.addReg (x y : RegIx) : TableRow.Statement (.addReg x y) := by
  simp only [TableRow.Statement, OpcodeRow.accepts, rowOf, encode, ofNibbles_mask]; decide
theorem TableRow.sub (x y : RegIx) : TableRow.Statement (.sub x y) := by
  simp only [TableRow.Statement, OpcodeRow.accepts, rowOf, encode, ofNibbles_mask]; decide
theorem TableRow.shr (x y : RegIx) : TableRow.Statement (.shr x y) := by
  simp only [TableRow.Statement, OpcodeRow.accepts, rowOf, encode, ofNibbles_mask]; decide
theorem TableRow.subn (x y : RegIx) : TableRow.Statement (.subn x y) := by
  simp only [TableRow.Statement, OpcodeRow.accepts, rowOf, encode, ofNibbles_mask]; decide
theorem TableRow.shl (x y : RegIx) : TableRow.Statement (.shl x y) := by
  simp only [TableRow.Statement, OpcodeRow.accepts, rowOf, encode, ofNibbles_mask]; decide
theorem TableRow.sneReg (x y : RegIx) : TableRow.Statement (.sneReg x y) := by
  simp only [TableRow.Statement, OpcodeRow.accepts, rowOf, encode, ofNibbles_mask]; decide
theorem TableRow.ldI (addr : Word) : TableRow.Statement (.ldI addr) := by
  simp only [TableRow.Statement, OpcodeRow.accepts, rowOf, encode, formatA_mask]; decide
theorem TableRow.jpV0 (addr : Word) : TableRow.Statement (.jpV0 addr) := by
  simp only [TableRow.Statement, OpcodeRow.accepts, rowOf, encode, formatA_mask]; decide
theorem TableRow.rnd (x : RegIx) (kk : Byte) : TableRow.Statement (.rnd x kk) := by
  simp only [TableRow.Statement, OpcodeRow.accepts, rowOf, encode, formatXK_mask]; decide
theorem TableRow.ldVxDt (x : RegIx) : TableRow.Statement (.ldVxDt x) := by
  simp only [TableRow.Statement, OpcodeRow.accepts, rowOf, encode, formatXF_mask]; decide
theorem TableRow.ldDtVx (x : RegIx) : TableRow.Statement (.ldDtVx x) := by
  simp only [TableRow.Statement, OpcodeRow.accepts, rowOf, encode, formatXF_mask]; decide
theorem TableRow.ldStVx (x : RegIx) : TableRow.Statement (.ldStVx x) := by
  simp only [TableRow.Statement, OpcodeRow.accepts, rowOf, encode, formatXF_mask]; decide
theorem TableRow.addI (x : RegIx) : TableRow.Statement (.addI x) := by
  simp only [TableRow.Statement, OpcodeRow.accepts, rowOf, encode, formatXF_mask]; decide
theorem TableRow.ldF (x : RegIx) : TableRow.Statement (.ldF x) := by
  simp only [TableRow.Statement, OpcodeRow.accepts, rowOf, encode, formatXF_mask]; decide
theorem TableRow.ldB (x : RegIx) : TableRow.Statement (.ldB x) := by
  simp only [TableRow.Statement, OpcodeRow.accepts, rowOf, encode, formatXF_mask]; decide
theorem TableRow.storeRegs (x : RegIx) : TableRow.Statement (.storeRegs x) := by
  simp only [TableRow.Statement, OpcodeRow.accepts, rowOf, encode, formatXF_mask]; decide
theorem TableRow.loadRegs (x : RegIx) : TableRow.Statement (.loadRegs x) := by
  simp only [TableRow.Statement, OpcodeRow.accepts, rowOf, encode, formatXF_mask]; decide

end Sys2Proof.Laws
end

