-- ==== Sys2Proof/Laws/State.lean ====
section
/-!
SUPPORT. One lemma per field of State per named update, so that no later proof unfolds a record.
-/
namespace Sys2Proof.Machine

variable (s : State)

/-! ### `State.setReg` -/

@[simp] theorem State.setReg_index (i : RegIx) (v : Byte) : (s.setReg i v).index = s.index := rfl
@[simp] theorem State.setReg_pc (i : RegIx) (v : Byte) : (s.setReg i v).pc = s.pc := rfl
@[simp] theorem State.setReg_sp (i : RegIx) (v : Byte) : (s.setReg i v).sp = s.sp := rfl
@[simp] theorem State.setReg_stack (i : RegIx) (v : Byte) : (s.setReg i v).stack = s.stack := rfl
@[simp] theorem State.setReg_dt (i : RegIx) (v : Byte) : (s.setReg i v).dt = s.dt := rfl
@[simp] theorem State.setReg_st (i : RegIx) (v : Byte) : (s.setReg i v).st = s.st := rfl
@[simp] theorem State.setReg_mem (i : RegIx) (v : Byte) : (s.setReg i v).mem = s.mem := rfl
@[simp] theorem State.setReg_disp (i : RegIx) (v : Byte) : (s.setReg i v).disp = s.disp := rfl
@[simp] theorem State.setReg_fault (i : RegIx) (v : Byte) : (s.setReg i v).fault = s.fault := rfl
@[simp] theorem State.setReg_finfo (i : RegIx) (v : Byte) : (s.setReg i v).finfo = s.finfo := rfl
@[simp] theorem State.setReg_started (i : RegIx) (v : Byte) : (s.setReg i v).started = s.started := rfl
@[simp] theorem State.setReg_font (i : RegIx) (v : Byte) : (s.setReg i v).font = s.font := rfl
@[simp] theorem State.setReg_agenda (i : RegIx) (v : Byte) : (s.setReg i v).agenda = s.agenda := rfl
@[simp] theorem State.setReg_cycle (i : RegIx) (v : Byte) : (s.setReg i v).cycle = s.cycle := rfl
@[simp] theorem State.setReg_draws (i : RegIx) (v : Byte) : (s.setReg i v).draws = s.draws := rfl

/-! ### `State.setResultFlag` -/

@[simp] theorem State.setResultFlag_index (x : RegIx) (r f : Byte) : (s.setResultFlag x r f).index = s.index := rfl
@[simp] theorem State.setResultFlag_pc (x : RegIx) (r f : Byte) : (s.setResultFlag x r f).pc = s.pc := rfl
@[simp] theorem State.setResultFlag_sp (x : RegIx) (r f : Byte) : (s.setResultFlag x r f).sp = s.sp := rfl
@[simp] theorem State.setResultFlag_stack (x : RegIx) (r f : Byte) : (s.setResultFlag x r f).stack = s.stack := rfl
@[simp] theorem State.setResultFlag_dt (x : RegIx) (r f : Byte) : (s.setResultFlag x r f).dt = s.dt := rfl
@[simp] theorem State.setResultFlag_st (x : RegIx) (r f : Byte) : (s.setResultFlag x r f).st = s.st := rfl
@[simp] theorem State.setResultFlag_mem (x : RegIx) (r f : Byte) : (s.setResultFlag x r f).mem = s.mem := rfl
@[simp] theorem State.setResultFlag_disp (x : RegIx) (r f : Byte) : (s.setResultFlag x r f).disp = s.disp := rfl
@[simp] theorem State.setResultFlag_fault (x : RegIx) (r f : Byte) : (s.setResultFlag x r f).fault = s.fault := rfl
@[simp] theorem State.setResultFlag_finfo (x : RegIx) (r f : Byte) : (s.setResultFlag x r f).finfo = s.finfo := rfl
@[simp] theorem State.setResultFlag_started (x : RegIx) (r f : Byte) : (s.setResultFlag x r f).started = s.started := rfl
@[simp] theorem State.setResultFlag_font (x : RegIx) (r f : Byte) : (s.setResultFlag x r f).font = s.font := rfl
@[simp] theorem State.setResultFlag_agenda (x : RegIx) (r f : Byte) : (s.setResultFlag x r f).agenda = s.agenda := rfl
@[simp] theorem State.setResultFlag_cycle (x : RegIx) (r f : Byte) : (s.setResultFlag x r f).cycle = s.cycle := rfl
@[simp] theorem State.setResultFlag_draws (x : RegIx) (r f : Byte) : (s.setResultFlag x r f).draws = s.draws := rfl

/-! ### `State.advance` -/

@[simp] theorem State.advance_regs : (s.advance).regs = s.regs := rfl
@[simp] theorem State.advance_index : (s.advance).index = s.index := rfl
@[simp] theorem State.advance_sp : (s.advance).sp = s.sp := rfl
@[simp] theorem State.advance_stack : (s.advance).stack = s.stack := rfl
@[simp] theorem State.advance_dt : (s.advance).dt = s.dt := rfl
@[simp] theorem State.advance_st : (s.advance).st = s.st := rfl
@[simp] theorem State.advance_mem : (s.advance).mem = s.mem := rfl
@[simp] theorem State.advance_disp : (s.advance).disp = s.disp := rfl
@[simp] theorem State.advance_fault : (s.advance).fault = s.fault := rfl
@[simp] theorem State.advance_finfo : (s.advance).finfo = s.finfo := rfl
@[simp] theorem State.advance_started : (s.advance).started = s.started := rfl
@[simp] theorem State.advance_font : (s.advance).font = s.font := rfl
@[simp] theorem State.advance_agenda : (s.advance).agenda = s.agenda := rfl
@[simp] theorem State.advance_cycle : (s.advance).cycle = s.cycle := rfl
@[simp] theorem State.advance_draws : (s.advance).draws = s.draws := rfl

/-! ### `State.jump` -/

@[simp] theorem State.jump_regs (a : Word) : (s.jump a).regs = s.regs := rfl
@[simp] theorem State.jump_index (a : Word) : (s.jump a).index = s.index := rfl
@[simp] theorem State.jump_sp (a : Word) : (s.jump a).sp = s.sp := rfl
@[simp] theorem State.jump_stack (a : Word) : (s.jump a).stack = s.stack := rfl
@[simp] theorem State.jump_dt (a : Word) : (s.jump a).dt = s.dt := rfl
@[simp] theorem State.jump_st (a : Word) : (s.jump a).st = s.st := rfl
@[simp] theorem State.jump_mem (a : Word) : (s.jump a).mem = s.mem := rfl
@[simp] theorem State.jump_disp (a : Word) : (s.jump a).disp = s.disp := rfl
@[simp] theorem State.jump_fault (a : Word) : (s.jump a).fault = s.fault := rfl
@[simp] theorem State.jump_finfo (a : Word) : (s.jump a).finfo = s.finfo := rfl
@[simp] theorem State.jump_started (a : Word) : (s.jump a).started = s.started := rfl
@[simp] theorem State.jump_font (a : Word) : (s.jump a).font = s.font := rfl
@[simp] theorem State.jump_agenda (a : Word) : (s.jump a).agenda = s.agenda := rfl
@[simp] theorem State.jump_cycle (a : Word) : (s.jump a).cycle = s.cycle := rfl
@[simp] theorem State.jump_draws (a : Word) : (s.jump a).draws = s.draws := rfl

/-! ### `State.raise` -/

@[simp] theorem State.raise_regs (e : Raised) : (s.raise e).regs = s.regs := rfl
@[simp] theorem State.raise_index (e : Raised) : (s.raise e).index = s.index := rfl
@[simp] theorem State.raise_pc (e : Raised) : (s.raise e).pc = s.pc := rfl
@[simp] theorem State.raise_sp (e : Raised) : (s.raise e).sp = s.sp := rfl
@[simp] theorem State.raise_stack (e : Raised) : (s.raise e).stack = s.stack := rfl
@[simp] theorem State.raise_dt (e : Raised) : (s.raise e).dt = s.dt := rfl
@[simp] theorem State.raise_st (e : Raised) : (s.raise e).st = s.st := rfl
@[simp] theorem State.raise_mem (e : Raised) : (s.raise e).mem = s.mem := rfl
@[simp] theorem State.raise_disp (e : Raised) : (s.raise e).disp = s.disp := rfl
@[simp] theorem State.raise_started (e : Raised) : (s.raise e).started = s.started := rfl
@[simp] theorem State.raise_font (e : Raised) : (s.raise e).font = s.font := rfl
@[simp] theorem State.raise_agenda (e : Raised) : (s.raise e).agenda = s.agenda := rfl
@[simp] theorem State.raise_cycle (e : Raised) : (s.raise e).cycle = s.cycle := rfl
@[simp] theorem State.raise_draws (e : Raised) : (s.raise e).draws = s.draws := rfl

/-! ### `State.tick` -/

@[simp] theorem State.tick_regs : (s.tick).regs = s.regs := rfl
@[simp] theorem State.tick_index : (s.tick).index = s.index := rfl
@[simp] theorem State.tick_pc : (s.tick).pc = s.pc := rfl
@[simp] theorem State.tick_sp : (s.tick).sp = s.sp := rfl
@[simp] theorem State.tick_stack : (s.tick).stack = s.stack := rfl
@[simp] theorem State.tick_mem : (s.tick).mem = s.mem := rfl
@[simp] theorem State.tick_disp : (s.tick).disp = s.disp := rfl
@[simp] theorem State.tick_fault : (s.tick).fault = s.fault := rfl
@[simp] theorem State.tick_finfo : (s.tick).finfo = s.finfo := rfl
@[simp] theorem State.tick_started : (s.tick).started = s.started := rfl
@[simp] theorem State.tick_font : (s.tick).font = s.font := rfl
@[simp] theorem State.tick_agenda : (s.tick).agenda = s.agenda := rfl
@[simp] theorem State.tick_cycle : (s.tick).cycle = s.cycle := rfl
@[simp] theorem State.tick_draws : (s.tick).draws = s.draws := rfl

@[simp] theorem State.advance_pc : s.advance.pc = s.pc + 2#16 := rfl
@[simp] theorem State.jump_pc (a : Word) : (s.jump a).pc = a := rfl
@[simp] theorem State.raise_fault (e : Raised) : (s.raise e).fault = e.cause := rfl
@[simp] theorem State.raise_finfo (e : Raised) : (s.raise e).finfo = BitVec.ofNat 16 e.info := rfl
@[simp] theorem State.tick_dt : s.tick.dt = timerTick s.dt := rfl
@[simp] theorem State.tick_st : s.tick.st = timerTick s.st := rfl
@[simp] theorem State.setReg_npc (i : RegIx) (v : Byte) : (s.setReg i v).npc = s.npc := rfl
@[simp] theorem State.setResultFlag_npc (x : RegIx) (r f : Byte) : (s.setResultFlag x r f).npc = s.npc := rfl

/-! ### `State.skipIf`: only the pc -/

/-- A conditional skip changes the pc alone, by 4 when the predicate holds and by 2 otherwise. -/
theorem State.skipIf_eq (p : Bool) :
    s.skipIf p = { s with pc := if p then s.pc + 2#16 + 2#16 else s.pc + 2#16 } := by
  cases p <;> rfl

@[simp] theorem State.skipIf_regs (p : Bool) : (s.skipIf p).regs = s.regs := by cases p <;> rfl
@[simp] theorem State.skipIf_index (p : Bool) : (s.skipIf p).index = s.index := by cases p <;> rfl
@[simp] theorem State.skipIf_sp (p : Bool) : (s.skipIf p).sp = s.sp := by cases p <;> rfl
@[simp] theorem State.skipIf_stack (p : Bool) : (s.skipIf p).stack = s.stack := by cases p <;> rfl
@[simp] theorem State.skipIf_dt (p : Bool) : (s.skipIf p).dt = s.dt := by cases p <;> rfl
@[simp] theorem State.skipIf_st (p : Bool) : (s.skipIf p).st = s.st := by cases p <;> rfl
@[simp] theorem State.skipIf_mem (p : Bool) : (s.skipIf p).mem = s.mem := by cases p <;> rfl
@[simp] theorem State.skipIf_disp (p : Bool) : (s.skipIf p).disp = s.disp := by cases p <;> rfl
@[simp] theorem State.skipIf_fault (p : Bool) : (s.skipIf p).fault = s.fault := by cases p <;> rfl
@[simp] theorem State.skipIf_finfo (p : Bool) : (s.skipIf p).finfo = s.finfo := by cases p <;> rfl
@[simp] theorem State.skipIf_started (p : Bool) : (s.skipIf p).started = s.started := by cases p <;> rfl
@[simp] theorem State.skipIf_font (p : Bool) : (s.skipIf p).font = s.font := by cases p <;> rfl
@[simp] theorem State.skipIf_agenda (p : Bool) : (s.skipIf p).agenda = s.agenda := by cases p <;> rfl
@[simp] theorem State.skipIf_cycle (p : Bool) : (s.skipIf p).cycle = s.cycle := by cases p <;> rfl
@[simp] theorem State.skipIf_draws (p : Bool) : (s.skipIf p).draws = s.draws := by cases p <;> rfl
@[simp] theorem State.skipIf_pc (p : Bool) :
    (s.skipIf p).pc = if p then s.pc + 2#16 + 2#16 else s.pc + 2#16 := by cases p <;> rfl

/-! ### `State.hostReset`: everything but the agents' own fields is at reset -/

@[simp] theorem State.hostReset_regs : s.hostReset.regs = (State.resetWith s.font).regs := rfl
@[simp] theorem State.hostReset_index : s.hostReset.index = (State.resetWith s.font).index := rfl
@[simp] theorem State.hostReset_pc : s.hostReset.pc = (State.resetWith s.font).pc := rfl
@[simp] theorem State.hostReset_sp : s.hostReset.sp = (State.resetWith s.font).sp := rfl
@[simp] theorem State.hostReset_stack : s.hostReset.stack = (State.resetWith s.font).stack := rfl
@[simp] theorem State.hostReset_dt : s.hostReset.dt = (State.resetWith s.font).dt := rfl
@[simp] theorem State.hostReset_st : s.hostReset.st = (State.resetWith s.font).st := rfl
@[simp] theorem State.hostReset_mem : s.hostReset.mem = (State.resetWith s.font).mem := rfl
@[simp] theorem State.hostReset_disp : s.hostReset.disp = (State.resetWith s.font).disp := rfl
@[simp] theorem State.hostReset_fault : s.hostReset.fault = (State.resetWith s.font).fault := rfl
@[simp] theorem State.hostReset_finfo : s.hostReset.finfo = (State.resetWith s.font).finfo := rfl
@[simp] theorem State.hostReset_started : s.hostReset.started = (State.resetWith s.font).started := rfl
@[simp] theorem State.hostReset_font : s.hostReset.font = s.font := rfl
@[simp] theorem State.hostReset_agenda : s.hostReset.agenda = s.agenda := rfl
@[simp] theorem State.hostReset_cycle : s.hostReset.cycle = s.cycle := rfl
@[simp] theorem State.hostReset_draws : s.hostReset.draws = s.draws := rfl

/-! ### `State.storeBytes`: memory only -/

@[simp] theorem State.storeBytes_regs (a : Nat) (bs : List Byte) : (s.storeBytes a bs).regs = s.regs := rfl
@[simp] theorem State.storeBytes_index (a : Nat) (bs : List Byte) : (s.storeBytes a bs).index = s.index := rfl
@[simp] theorem State.storeBytes_pc (a : Nat) (bs : List Byte) : (s.storeBytes a bs).pc = s.pc := rfl
@[simp] theorem State.storeBytes_sp (a : Nat) (bs : List Byte) : (s.storeBytes a bs).sp = s.sp := rfl
@[simp] theorem State.storeBytes_stack (a : Nat) (bs : List Byte) : (s.storeBytes a bs).stack = s.stack := rfl
@[simp] theorem State.storeBytes_dt (a : Nat) (bs : List Byte) : (s.storeBytes a bs).dt = s.dt := rfl
@[simp] theorem State.storeBytes_st (a : Nat) (bs : List Byte) : (s.storeBytes a bs).st = s.st := rfl
@[simp] theorem State.storeBytes_disp (a : Nat) (bs : List Byte) : (s.storeBytes a bs).disp = s.disp := rfl
@[simp] theorem State.storeBytes_fault (a : Nat) (bs : List Byte) : (s.storeBytes a bs).fault = s.fault := rfl
@[simp] theorem State.storeBytes_finfo (a : Nat) (bs : List Byte) : (s.storeBytes a bs).finfo = s.finfo := rfl
@[simp] theorem State.storeBytes_started (a : Nat) (bs : List Byte) : (s.storeBytes a bs).started = s.started := rfl
@[simp] theorem State.storeBytes_font (a : Nat) (bs : List Byte) : (s.storeBytes a bs).font = s.font := rfl
@[simp] theorem State.storeBytes_agenda (a : Nat) (bs : List Byte) : (s.storeBytes a bs).agenda = s.agenda := rfl
@[simp] theorem State.storeBytes_cycle (a : Nat) (bs : List Byte) : (s.storeBytes a bs).cycle = s.cycle := rfl
@[simp] theorem State.storeBytes_draws (a : Nat) (bs : List Byte) : (s.storeBytes a bs).draws = s.draws := rfl
@[simp] theorem State.storeBytes_mem (a : Nat) (bs : List Byte) : (s.storeBytes a bs).mem = s.mem.putBytes s.font a bs := rfl

/-! ### What a port's answer leaves -/

@[simp] theorem State.accept_ok (t : State) : s.accept (.ok t) = t := rfl
@[simp] theorem State.accept_error (e : PortError) : s.accept (.error e) = s := rfl

/-! ### `State.taken`: the agenda only -/

@[simp] theorem State.taken_regs : s.taken.regs = s.regs := rfl
@[simp] theorem State.taken_index : s.taken.index = s.index := rfl
@[simp] theorem State.taken_pc : s.taken.pc = s.pc := rfl
@[simp] theorem State.taken_sp : s.taken.sp = s.sp := rfl
@[simp] theorem State.taken_stack : s.taken.stack = s.stack := rfl
@[simp] theorem State.taken_dt : s.taken.dt = s.dt := rfl
@[simp] theorem State.taken_st : s.taken.st = s.st := rfl
@[simp] theorem State.taken_mem : s.taken.mem = s.mem := rfl
@[simp] theorem State.taken_disp : s.taken.disp = s.disp := rfl
@[simp] theorem State.taken_fault : s.taken.fault = s.fault := rfl
@[simp] theorem State.taken_finfo : s.taken.finfo = s.finfo := rfl
@[simp] theorem State.taken_started : s.taken.started = s.started := rfl
@[simp] theorem State.taken_font : s.taken.font = s.font := rfl
@[simp] theorem State.taken_cycle : s.taken.cycle = s.cycle := rfl
@[simp] theorem State.taken_draws : s.taken.draws = s.draws := rfl

/-! ### Reading a byte after an update that keeps memory and FONT -/

@[simp] theorem State.byte_setReg (i : RegIx) (v : Byte) (a : Nat) : (s.setReg i v).byte a = s.byte a := rfl
@[simp] theorem State.byte_setResultFlag (x : RegIx) (r f : Byte) (a : Nat) : (s.setResultFlag x r f).byte a = s.byte a := rfl
@[simp] theorem State.byte_advance (a : Nat) : (s.advance).byte a = s.byte a := rfl
@[simp] theorem State.byte_jump (t : Word) (a : Nat) : (s.jump t).byte a = s.byte a := rfl
@[simp] theorem State.byte_raise (e : Raised) (a : Nat) : (s.raise e).byte a = s.byte a := rfl
@[simp] theorem State.byte_tick (a : Nat) : (s.tick).byte a = s.byte a := rfl
@[simp] theorem State.byte_taken (a : Nat) : (s.taken).byte a = s.byte a := rfl
@[simp] theorem State.byte_skipIf (p : Bool) (a : Nat) : (s.skipIf p).byte a = s.byte a := by cases p <;> rfl

/-! ### Reading a register after an update -/

@[simp] theorem State.reg_setReg_same (i : RegIx) (v : Byte) : (s.setReg i v).reg i = v := by
  simp [State.reg, State.setReg]

theorem State.reg_setReg (i r : RegIx) (v : Byte) :
    (s.setReg i v).reg r = if r = i then v else s.reg r := by
  by_cases h : r = i
  · subst h; simp
  · have : i.val ≠ r.val := fun e => h (Fin.ext e.symm)
    simp [State.reg, State.setReg, Vector.getElem_set_ne, this, h]

theorem State.reg_setReg_ne (i r : RegIx) (v : Byte) (h : r ≠ i) :
    (s.setReg i v).reg r = s.reg r := by
  simp [State.reg_setReg, h]

/-- The flag is written last: a read of register 0xF gives the flag, of another destination the
result, of any other register its old value (40_register_arithmetic.md R80). -/
theorem State.reg_setResultFlag (x r : RegIx) (v f : Byte) :
    (s.setResultFlag x v f).reg r = if r = flagReg then f else if r = x then v else s.reg r := by
  simp [State.setResultFlag, State.reg_setReg]

@[simp] theorem State.reg_advance (r : RegIx) : s.advance.reg r = s.reg r := rfl
@[simp] theorem State.reg_jump (a : Word) (r : RegIx) : (s.jump a).reg r = s.reg r := rfl
@[simp] theorem State.reg_raise (e : Raised) (r : RegIx) : (s.raise e).reg r = s.reg r := rfl
@[simp] theorem State.reg_storeBytes (a : Nat) (bs : List Byte) (r : RegIx) : (s.storeBytes a bs).reg r = s.reg r := rfl
@[simp] theorem State.reg_taken (r : RegIx) : s.taken.reg r = s.reg r := rfl
@[simp] theorem State.reg_tick (r : RegIx) : s.tick.reg r = s.reg r := rfl
@[simp] theorem State.reg_skipIf (p : Bool) (r : RegIx) : (s.skipIf p).reg r = s.reg r := by
  cases p <;> rfl

end Sys2Proof.Machine
end

