-- ==== Sys2Proof/Laws/Step.lean ====
section
/-!
SUPPORT. What a step can do, said once: which move is made, and what the shared operations an
instruction ends with can answer.
-/
namespace Sys2Proof.Machine

/-! ### Which move a step makes -/

theorem step_eq (s : State) : step s = perform s.nextMove s.taken := rfl

theorem State.nextMove_pending {s : State} {m : Move} {rest : List Move} (h : s.agenda = m :: rest) :
    s.nextMove = m := by simp [State.nextMove, h]

theorem State.taken_pending {s : State} {m : Move} {rest : List Move} (h : s.agenda = m :: rest) :
    s.taken = { s with agenda := rest } := by simp [State.taken, h]

/-- With no move listed the dispatcher moves, and nothing is taken off. -/
theorem State.nextMove_unlisted {s : State} (h : s.agenda = []) (hc : s.cycle = []) :
    s.nextMove = .dispatch := by simp [State.nextMove, h, hc]

theorem State.taken_unlisted {s : State} (h : s.agenda = []) (hc : s.cycle = []) :
    s.taken = s := by cases s; simp_all [State.taken]

/-! ### What an instruction's end and the operations it calls can answer -/

/-- An instruction that ends in `settle` of a mapped result: the state made, or the fault taken. -/
theorem settle_map_cases {α : Type} {s t : State} {r : Except Raised α} {f : α → State}
    (h : settle s (r.map f) = .next t) :
    (∃ a, r = .ok a ∧ t = f a) ∨ (∃ e, r = .error e ∧ t = s.raise e) := by
  cases r with
  | ok a => cases h; exact .inl ⟨a, rfl, rfl⟩
  | error e => cases h; exact .inr ⟨e, rfl, rfl⟩

theorem push_ok {s a : State} {v : Word} (h : s.push v = .ok a) :
    ∃ hl : s.sp.val < 16,
      a = { s with stack := s.stack.set s.sp.val v hl, sp := ⟨s.sp.val + 1, by omega⟩ } := by
  by_cases hl : s.sp.val < 16
  · rw [State.push_of_lt hl] at h; cases h; exact ⟨hl, rfl⟩
  · rw [State.push_of_full hl] at h; cases h

theorem push_error {s : State} {v : Word} {e : Raised} (h : s.push v = .error e) :
    s.sp.val = 16 ∧ e = ⟨.stackOverflow, v.toNat⟩ := by
  by_cases hl : s.sp.val < 16
  · rw [State.push_of_lt hl] at h; cases h
  · rw [State.push_of_full hl] at h; cases h; exact ⟨by omega, rfl⟩

theorem pop_ok {s : State} {a : Word × State} (h : s.pop = .ok a) :
    ∃ hl : 0 < s.sp.val,
      a = (s.stack[s.sp.val - 1], { s with sp := ⟨s.sp.val - 1, by omega⟩ }) := by
  by_cases hl : 0 < s.sp.val
  · rw [State.pop_of_pos hl] at h; cases h; exact ⟨hl, rfl⟩
  · rw [State.pop_of_empty hl] at h; cases h

theorem pop_error {s : State} {e : Raised} (h : s.pop = .error e) :
    s.sp.val = 0 ∧ e = ⟨.stackUnderflow, 0⟩ := by
  by_cases hl : 0 < s.sp.val
  · rw [State.pop_of_pos hl] at h; cases h
  · rw [State.pop_of_empty hl] at h; cases h; exact ⟨by omega, rfl⟩

theorem checkRange_ok {base count : Nat} {u : Unit} (h : checkRange base count = .ok u) :
    base + (count - 1) ≤ 0xFFF := by
  unfold checkRange at h; split at h
  · cases h
  · omega

theorem checkRange_error {base count : Nat} {e : Raised} (h : checkRange base count = .error e) :
    0xFFF < base + (count - 1) ∧ e = ⟨.addressFault, max base 0x1000⟩ := by
  unfold checkRange at h; split at h
  · cases h; exact ⟨by omega, rfl⟩
  · cases h

/-! ### Everything a step can do -/

/-- A dispatcher step: nothing when it is not enabled, else a fault of the fetch or decode taken,
or an instruction run with pc at most 0xFFE (30_encoding.md R66). -/
theorem dispatcherStep_cases {s t : State} (h : dispatcherStep s = .next t) :
    (s.running = false ∧ t = s) ∨
      (s.running = true ∧ ∃ e : Raised, e.cause ≠ .none ∧ t = s.raise e) ∨
      (s.running = true ∧ s.pc.toNat ≤ 0xFFE ∧ ∃ i, exec i s = .next t) := by
  by_cases hr : s.running = true
  · right
    rw [dispatcherStep_of_running hr, fetchExecute, fetch_eq] at h
    by_cases hp : s.pc.toNat ≤ 0xFFE
    · rw [if_pos hp] at h
      simp only [] at h
      split at h
      · cases h; exact .inl ⟨hr, _, by simp, rfl⟩
      · exact .inr ⟨hr, hp, _, h⟩
    · rw [if_neg hp] at h; cases h; exact .inl ⟨hr, _, by simp, rfl⟩
  · rw [dispatcherStep_of_not_running (by simpa using hr)] at h
    cases h; exact .inl ⟨by simpa using hr, rfl⟩

/-- A move: a tick, an accepted host event, a fault of the fetch or decode, an instruction, or
nothing, where the port turns the host away or the dispatcher is not enabled (00_scope.md R3). -/
theorem perform_cases {m : Move} {s t : State} (h : perform m s = .next t) :
    t = s ∨ t = s.tick ∨ t = s.hostReset ∨
      (s.stopped = true ∧ ∃ entry, t = { s.jump (maskAddr entry) with started := true }) ∨
      (s.stopped = true ∧ ∃ a b, a ≤ 0xFFF ∧ t = s.storeBytes a [b]) ∨
      (s.running = true ∧ ∃ e : Raised, e.cause ≠ .none ∧ t = s.raise e) ∨
      (s.running = true ∧ s.pc.toNat ≤ 0xFFE ∧ ∃ i, exec i s = .next t) := by
  cases m with
  | dispatch =>
    rcases dispatcherStep_cases h with h | h | h
    · exact .inl h.2
    · exact .inr (.inr (.inr (.inr (.inr (.inl h)))))
    · exact .inr (.inr (.inr (.inr (.inr (.inr h)))))
  | tick => cases h; exact .inr (.inl rfl)
  | hostReset => cases h; exact .inr (.inr (.inl rfl))
  | hostStart entry =>
    simp only [perform, State.hostStart] at h
    split at h
    · next hs => cases h; exact .inr (.inr (.inr (.inl ⟨hs, entry, rfl⟩)))
    · cases h; exact .inl rfl
  | hostWriteMem a b =>
    simp only [perform, State.hostWriteMem] at h
    split at h
    · next hs =>
      by_cases hle : a.toNat ≤ 0xFFF
      · rw [memWrite_of_le hle] at h
        cases h; exact .inr (.inr (.inr (.inr (.inl ⟨hs, a.toNat, b, hle, rfl⟩))))
      · rw [memWrite_of_gt (by omega)] at h
        cases h; exact .inl rfl
    · cases h; exact .inl rfl

/-- A step is a move, made in the state with it taken off (log entry 3). -/
theorem step_cases {s t : State} (h : step s = .next t) :
    t = s.taken ∨ t = s.taken.tick ∨ t = s.taken.hostReset ∨
      (s.taken.stopped = true ∧
        ∃ entry, t = { s.taken.jump (maskAddr entry) with started := true }) ∨
      (s.taken.stopped = true ∧ ∃ a b, a ≤ 0xFFF ∧ t = s.taken.storeBytes a [b]) ∨
      (s.taken.running = true ∧ ∃ e : Raised, e.cause ≠ .none ∧ t = s.taken.raise e) ∨
      (s.taken.running = true ∧ s.taken.pc.toNat ≤ 0xFFE ∧ ∃ i, exec i s.taken = .next t) :=
  perform_cases h

end Sys2Proof.Machine
end

