-- ==== Sys2Proof/Laws/Schedule.lean ====
section
/-!
SUPPORT. The machine's own steps and the schedules of moves: every schedule's first moves are a run
of steps, every run of steps follows a schedule, and a cycle that holds a tick makes it fair
(60_exceptions.md R177, log entry 3).
-/
namespace Sys2Proof.Machine

/-! ### No move reads or writes the agenda or the cycle -/

/-- The state with other coming moves. -/
def State.withMoves (s : State) (l c : List Move) : State := { s with agenda := l, cycle := c }

/-- An outcome whose next state has other coming moves. -/
def outcomeWithMoves (l c : List Move) :
    Host.Outcome State Fault Refusal → Host.Outcome State Fault Refusal
  | .next t => .next (t.withMoves l c)
  | .fault r => .fault r
  | .refused r => .refused r

theorem skipIf_withMoves (s : State) (l c : List Move) (p : Bool) :
    (s.withMoves l c).skipIf p = (s.skipIf p).withMoves l c := by cases p <;> rfl

theorem settle_withMoves {α : Type} (s : State) (l c : List Move) (r : Except Raised α)
    (f g : α → State) (h : ∀ a, g a = (f a).withMoves l c) :
    settle (s.withMoves l c) (r.map g) = outcomeWithMoves l c (settle s (r.map f)) := by
  cases r with
  | ok a => exact congrArg Host.Outcome.next (h a)
  | error e => rfl

theorem exec_withMoves (i : Instr) (s : State) (l c : List Move) :
    exec i (s.withMoves l c) = outcomeWithMoves l c (exec i s) := by
  cases i with
  | call addr =>
    by_cases h : s.sp.val < 16
    · simp only [exec, execCall, State.push_of_lt h,
        State.push_of_lt (s := s.withMoves l c) h]
      rfl
    · simp only [exec, execCall, State.push_of_full h,
        State.push_of_full (s := s.withMoves l c) h]
      rfl
  | ret =>
    by_cases h : 0 < s.sp.val
    · simp only [exec, execRet, State.pop_of_pos h, State.pop_of_pos (s := s.withMoves l c) h]
      rfl
    · simp only [exec, execRet, State.pop_of_empty h, State.pop_of_empty (s := s.withMoves l c) h]
      rfl
  | seByte x kk => exact congrArg Host.Outcome.next (skipIf_withMoves s l c _)
  | sneByte x kk => exact congrArg Host.Outcome.next (skipIf_withMoves s l c _)
  | seReg x y => exact congrArg Host.Outcome.next (skipIf_withMoves s l c _)
  | sneReg x y => exact congrArg Host.Outcome.next (skipIf_withMoves s l c _)
  | storeRegs x => exact settle_withMoves s l c _ _ _ fun _ => rfl
  | loadRegs x => exact settle_withMoves s l c _ _ _ fun _ => rfl
  | ldB x => exact settle_withMoves s l c _ _ _ fun _ => rfl
  | _ => rfl

theorem dispatcherStep_withMoves (s : State) (l c : List Move) :
    dispatcherStep (s.withMoves l c) = outcomeWithMoves l c (dispatcherStep s) := by
  by_cases hr : s.running = true
  · rw [dispatcherStep_of_running hr, dispatcherStep_of_running (s := s.withMoves l c) hr,
      fetchExecute, fetchExecute, show fetch (s.withMoves l c) = fetch s from rfl]
    cases fetch s with
    | error e => rfl
    | ok w =>
      simp only []
      cases decodeWord w with
      | error e => rfl
      | ok i => exact exec_withMoves i s l c
  · have hf : s.running = false := by simpa using hr
    rw [dispatcherStep_of_not_running hf, dispatcherStep_of_not_running (s := s.withMoves l c) hf]
    rfl

theorem perform_withMoves (m : Move) (s : State) (l c : List Move) :
    perform m (s.withMoves l c) = outcomeWithMoves l c (perform m s) := by
  cases m with
  | dispatch => exact dispatcherStep_withMoves s l c
  | tick => rfl
  | hostReset => rfl
  | hostStart entry =>
    by_cases h : s.stopped = true
    · simp [perform, State.hostStart, h, show (s.withMoves l c).stopped = true from h]; rfl
    · simp [perform, State.hostStart, h, show ¬(s.withMoves l c).stopped = true from h]; rfl
  | hostWriteMem a b =>
    by_cases h : s.stopped = true
    · simp only [perform, State.hostWriteMem, h, show (s.withMoves l c).stopped = true from h, if_true]
      by_cases ha : a.toNat ≤ 0xFFF
      · rw [memWrite_of_le ha, memWrite_of_le ha]; rfl
      · rw [memWrite_of_gt (by omega), memWrite_of_gt (by omega)]; rfl
    · simp [perform, State.hostWriteMem, h, show ¬(s.withMoves l c).stopped = true from h]; rfl

theorem after_withMoves (s : State) (m : Move) (l c : List Move) :
    (s.withMoves l c).after m = (s.after m).withMoves l c := by
  unfold State.after
  rw [perform_withMoves]
  cases perform m s <;> rfl

/-- A move leaves the coming moves as they are. -/
theorem after_eq_withMoves (s : State) (m : Move) :
    s.after m = (s.after m).withMoves s.agenda s.cycle := after_withMoves s m s.agenda s.cycle

@[simp] theorem after_agenda (s : State) (m : Move) : (s.after m).agenda = s.agenda :=
  (congrArg State.agenda (after_eq_withMoves s m) :)

@[simp] theorem after_cycle (s : State) (m : Move) : (s.after m).cycle = s.cycle :=
  (congrArg State.cycle (after_eq_withMoves s m) :)

/-! ### Steps follow a schedule -/

/-- `runSteps` is the machine's `step`, repeated. -/
theorem runSteps_succ_of_step {n : Nat} {s t : State} (h : step (runSteps n s) = .next t) :
    runSteps (n + 1) s = t := by
  rw [step_eq] at h
  rw [runSteps, State.after, h]

theorem taken_eq_withMoves (s : State) : s.taken = s.withMoves s.taken.agenda s.cycle := rfl

theorem runUnder_withMoves (σ : Schedule) (n : Nat) (s : State) (l c : List Move) :
    runUnder σ n (s.withMoves l c) = (runUnder σ n s).withMoves l c := by
  induction n with
  | zero => rfl
  | succ n ih => rw [runUnder, ih, after_withMoves, runUnder]

/-- A run of steps is the run under the schedule the steps follow, but for the agenda used up. -/
theorem runSteps_eq_runUnder (n : Nat) (s : State) :
    runSteps n s = (runUnder (scheduleOf s) n s).withMoves (runSteps n s).agenda s.cycle := by
  induction n with
  | zero => rfl
  | succ n ih =>
    have hc : (runSteps (n + 1) s).agenda = (runSteps n s).taken.agenda := after_agenda _ _
    rw [hc, runUnder, ← after_withMoves, runSteps]
    show (runSteps n s).taken.after (scheduleOf s n) = _
    congr 1
    have hcyc : (runSteps n s).cycle = s.cycle := (congrArg State.cycle ih :)
    calc (runSteps n s).taken
        = (runSteps n s).withMoves (runSteps n s).taken.agenda s.cycle := by rw [← hcyc]; rfl
      _ = _ := congrArg (·.withMoves (runSteps n s).taken.agenda s.cycle) ih

/-- The first `n` moves of any schedule, listed in the agenda, are `n` steps of the machine. -/
theorem runSteps_of_listed (σ : Schedule) (n : Nat) (s : State) (rest : List Move) :
    runSteps n (s.withMoves ((List.range n).map σ ++ rest) s.cycle) =
      (runUnder σ n s).withMoves rest s.cycle := by
  induction n generalizing rest with
  | zero => rfl
  | succ n ih =>
    rw [List.range_succ, List.map_append, List.append_assoc, runSteps, ih]
    show ((runUnder σ n s).withMoves rest s.cycle).after (σ n) = _
    rw [after_withMoves, runUnder]

/-! ### A cycle that holds a tick is fair -/

theorem runSteps_cycle (n : Nat) (s : State) : (runSteps n s).cycle = s.cycle :=
  (congrArg State.cycle (runSteps_eq_runUnder n s) :)

theorem runSteps_add (n k : Nat) (s : State) : runSteps (n + k) s = runSteps k (runSteps n s) := by
  induction k with
  | zero => rfl
  | succ k ih => rw [← Nat.add_assoc, runSteps, ih, runSteps]

/-- The moves listed in the agenda are the next ones made. -/
theorem runSteps_agenda (k : Nat) (s : State) (h : k ≤ s.agenda.length) :
    (runSteps k s).agenda = s.agenda.drop k := by
  induction k with
  | zero => rfl
  | succ k ih =>
    have hk := ih (by omega)
    have hne : (runSteps k s).agenda ≠ [] := by rw [hk]; simp; omega
    rw [runSteps, after_agenda, State.taken]
    rw [if_neg hne, hk, List.tail_drop]

/-- Where a tick is listed in the agenda, a tick comes. -/
theorem tick_of_agenda {s : State} (h : .tick ∈ s.agenda) : ∃ k, scheduleOf s k = .tick := by
  obtain ⟨k, hk, he⟩ := List.getElem_of_mem h
  refine ⟨k, ?_⟩
  show (runSteps k s).nextMove = .tick
  rw [State.nextMove, runSteps_agenda k s (by omega), List.drop_eq_getElem_cons hk, he]
  rfl

/-- Where the cycle holds a tick, ticks keep arriving. -/
theorem fair_of_cycle {s : State} (h : .tick ∈ s.cycle) : Fair (scheduleOf s) := by
  have comes : ∀ u : State, .tick ∈ u.cycle → ∃ k, scheduleOf u k = .tick := by
    intro u hu
    let v := runSteps u.agenda.length u
    have hv : v.agenda = [] := by simp [v, runSteps_agenda _ u (Nat.le_refl _)]
    have hvc : v.cycle = u.cycle := runSteps_cycle _ u
    obtain ⟨m, rest, hm⟩ : ∃ m rest, v.cycle = m :: rest := by
      rw [hvc]; cases hc : u.cycle with
      | nil => rw [hc] at hu; cases hu
      | cons m rest => exact ⟨m, rest, rfl⟩
    have hnext : v.nextMove = m := by simp [State.nextMove, hv, hm]
    by_cases ht : m = .tick
    · exact ⟨u.agenda.length, hnext.trans ht⟩
    · have hw : (runSteps 1 v).agenda = rest := by
        rw [runSteps, after_agenda]
        simp [runSteps, State.taken, hv, hm]
      have hmem : Move.tick ∈ (runSteps 1 v).agenda := by
        rw [← hvc, hm] at hu
        rw [hw]
        rcases List.mem_cons.1 hu with e | e
        · exact absurd e.symm ht
        · exact e
      obtain ⟨k, hk⟩ := tick_of_agenda hmem
      refine ⟨u.agenda.length + 1 + k, ?_⟩
      show (runSteps _ u).nextMove = .tick
      rw [runSteps_add, runSteps_add]
      exact hk
  intro n
  obtain ⟨k, hk⟩ := comes (runSteps n s) (by rw [runSteps_cycle]; exact h)
  refine ⟨n + k, Nat.le_add_right n k, ?_⟩
  show (runSteps _ s).nextMove = .tick
  rw [runSteps_add]
  exact hk

end Sys2Proof.Machine
end

