-- ==== Sys2Proof/Tests/Slice0.lean ====
section
/-!
SUPPORT. The model's own tests: the words of 30_encoding.md R65, the vectors of 95_test_vectors.md,
and for every statement with hypotheses a concrete case that meets them.
-/
namespace Sys2Proof.Machine.Tests

/-! ### Well-formedness: an address operand of 13 bits or more is refused (30_encoding.md R62) -/

theorem test_ill_formed_jp : (Instr.jp 0x1000#16).wellFormed = false := by decide
theorem test_ill_formed_call : (Instr.call 0x1234#16).wellFormed = false := by decide
theorem test_ill_formed_ldI : (Instr.ldI 0xFFFF#16).wellFormed = false := by decide
theorem test_ill_formed_jpV0 : (Instr.jpV0 0x8000#16).wellFormed = false := by decide
theorem test_well_formed_bound :
    (Instr.jp 0x0FFF#16).wellFormed = true ∧ (Instr.ldByte 0xF 0xFF#8).wellFormed = true := by decide

/-! ### Decoding and encoding, the words written out bit by bit -/

/-- formats Z (30_encoding.md R65). -/
theorem test_decode_no_operand :
    decodeWord 0b0000000011100000#16 = .ok (.cls) ∧
    decodeWord 0b0000000011101110#16 = .ok (.ret) := by decide
theorem test_encode_no_operand :
    encode (.cls) = 0b0000000011100000#16 ∧
    encode (.ret) = 0b0000000011101110#16 := by decide

/-- format A (R65). -/
theorem test_decode_jumps :
    decodeWord 0b0001001000110100#16 = .ok (.jp 0x234#16) ∧
    decodeWord 0b0010001100000000#16 = .ok (.call 0x300#16) ∧
    decodeWord 0b1011001100000000#16 = .ok (.jpV0 0x300#16) ∧
    decodeWord 0b1010001011110000#16 = .ok (.ldI 0x2F0#16) := by decide
theorem test_encode_jumps :
    encode (.jp 0x234#16) = 0b0001001000110100#16 ∧
    encode (.call 0x300#16) = 0b0010001100000000#16 ∧
    encode (.jpV0 0x300#16) = 0b1011001100000000#16 ∧
    encode (.ldI 0x2F0#16) = 0b1010001011110000#16 := by decide

/-- format XK (R65). -/
theorem test_decode_bytes :
    decodeWord 0b0011000100000000#16 = .ok (.seByte 1 0x00#8) ∧
    decodeWord 0b0100000110101011#16 = .ok (.sneByte 1 0xAB#8) ∧
    decodeWord 0b0110001100101010#16 = .ok (.ldByte 3 0x2A#8) ∧
    decodeWord 0b0111010100000011#16 = .ok (.addByte 5 0x03#8) ∧
    decodeWord 0b1100001100001111#16 = .ok (.rnd 3 0x0F#8) := by decide
theorem test_encode_bytes :
    encode (.seByte 1 0x00#8) = 0b0011000100000000#16 ∧
    encode (.sneByte 1 0xAB#8) = 0b0100000110101011#16 ∧
    encode (.ldByte 3 0x2A#8) = 0b0110001100101010#16 ∧
    encode (.addByte 5 0x03#8) = 0b0111010100000011#16 ∧
    encode (.rnd 3 0x0F#8) = 0b1100001100001111#16 := by decide

/-- format XY with low nibble 0 (R65). -/
theorem test_decode_skips_on_registers :
    decodeWord 0b0101001000110000#16 = .ok (.seReg 2 3) ∧
    decodeWord 0b1001001000110000#16 = .ok (.sneReg 2 3) := by decide
theorem test_encode_skips_on_registers :
    encode (.seReg 2 3) = 0b0101001000110000#16 ∧
    encode (.sneReg 2 3) = 0b1001001000110000#16 := by decide

/-- format XY, 8xyN (R65). -/
theorem test_decode_alu :
    decodeWord 0b1000011001110000#16 = .ok (.ldReg 6 7) ∧
    decodeWord 0b1000000100100001#16 = .ok (.or 1 2) ∧
    decodeWord 0b1000000100100010#16 = .ok (.and 1 2) ∧
    decodeWord 0b1000000100100011#16 = .ok (.xor 1 2) ∧
    decodeWord 0b1000101010110100#16 = .ok (.addReg 0xA 0xB) ∧
    decodeWord 0b1000001101000101#16 = .ok (.sub 3 4) ∧
    decodeWord 0b1000000100100110#16 = .ok (.shr 1 2) ∧
    decodeWord 0b1000001101000111#16 = .ok (.subn 3 4) ∧
    decodeWord 0b1000000100101110#16 = .ok (.shl 1 2) := by decide
theorem test_encode_alu :
    encode (.ldReg 6 7) = 0b1000011001110000#16 ∧
    encode (.or 1 2) = 0b1000000100100001#16 ∧
    encode (.and 1 2) = 0b1000000100100010#16 ∧
    encode (.xor 1 2) = 0b1000000100100011#16 ∧
    encode (.addReg 0xA 0xB) = 0b1000101010110100#16 ∧
    encode (.sub 3 4) = 0b1000001101000101#16 ∧
    encode (.shr 1 2) = 0b1000000100100110#16 ∧
    encode (.subn 3 4) = 0b1000001101000111#16 ∧
    encode (.shl 1 2) = 0b1000000100101110#16 := by decide

/-- format XF (R65). -/
theorem test_decode_misc :
    decodeWord 0b1111010000000111#16 = .ok (.ldVxDt 4) ∧
    decodeWord 0b1111001100010101#16 = .ok (.ldDtVx 3) ∧
    decodeWord 0b1111001100011000#16 = .ok (.ldStVx 3) ∧
    decodeWord 0b1111001000011110#16 = .ok (.addI 2) ∧
    decodeWord 0b1111010000101001#16 = .ok (.ldF 4) ∧
    decodeWord 0b1111000000110011#16 = .ok (.ldB 0) ∧
    decodeWord 0b1111000101010101#16 = .ok (.storeRegs 1) ∧
    decodeWord 0b1111001001100101#16 = .ok (.loadRegs 2) := by decide
theorem test_encode_misc :
    encode (.ldVxDt 4) = 0b1111010000000111#16 ∧
    encode (.ldDtVx 3) = 0b1111001100010101#16 ∧
    encode (.ldStVx 3) = 0b1111001100011000#16 ∧
    encode (.addI 2) = 0b1111001000011110#16 ∧
    encode (.ldF 4) = 0b1111010000101001#16 ∧
    encode (.ldB 0) = 0b1111000000110011#16 ∧
    encode (.storeRegs 1) = 0b1111000101010101#16 ∧
    encode (.loadRegs 2) = 0b1111001001100101#16 := by decide

/-- The illegal words of 95_test_vectors.md section 2.5, by name. -/
theorem test_decode_refuses :
    decodeWord 0x0000#16 = .error (.absent .sys 0x0000#16) ∧
    decodeWord 0x00E1#16 = .error (.absent .sys 0x00E1#16) ∧
    decodeWord 0x5011#16 = .error (.unassigned 0x5011#16) ∧
    decodeWord 0x9ABF#16 = .error (.unassigned 0x9ABF#16) ∧
    decodeWord 0x812D#16 = .error (.unassigned 0x812D#16) ∧
    decodeWord 0xD123#16 = .error (.absent .drw 0xD123#16) ∧
    decodeWord 0xE19E#16 = .error (.absent .skp 0xE19E#16) ∧
    decodeWord 0xE1A1#16 = .error (.absent .sknp 0xE1A1#16) ∧
    decodeWord 0xF10A#16 = .error (.absent .ldKey 0xF10A#16) ∧
    decodeWord 0xF175#16 = .error (.unassigned 0xF175#16) ∧
    decode [0x12#8] = .error .truncated := by decide

/-- Big-endian bytes with more behind them (20_memory.md R43). -/
theorem test_decode_two_bytes : decode [0x12#8, 0x34#8, 0xAB#8] = .ok (.jp 0x234#16, [0xAB#8]) := by decide
theorem test_decode_table_word : decodeTableWord 16 0xFF55 = some (.storeRegs 0xF) := by decide

/-! ### One step on a small state -/

/-- Reset with pc = 0x200, as the vectors assume (95_test_vectors.md, notation). -/
def base : State := { State.reset with pc := 0x200#16 }

/-- A state with some registers set. -/
def withRegs (s : State) (l : List (RegIx × Byte)) : State := l.foldl (fun t r => t.setReg r.1 r.2) s

/-- The next state of an outcome (every outcome has one; otherwise a state no test expects). -/
def nextOf : Host.Outcome State Fault Refusal → State
  | .next t => t
  | .fault _ => { base with pc := 0xDEAD#16 }
  | .refused _ => { base with pc := 0xDEAD#16 }

/-- The state after one step on the word `w` placed at the pc. -/
def after (s : State) (w : Nat) : State := nextOf (step (s.withFetchWord 16 w))

/-- The host's answer from a port that turned its request away. -/
def portError : Except PortError State → Option PortError
  | .ok _ => none
  | .error e => some e

/-- Nothing latched by a step that was to complete. -/
def latch (s : State) : Cause × Word := (s.fault, s.finfo)

/-- 95_test_vectors.md section 2.1. -/
theorem test_add_wraps :
    let t := after (withRegs base [(1, 0xFF#8), (2, 0x01#8)]) 0x8124
    t.reg 1 = 0x00#8 ∧ t.reg 0xF = 0x01#8 ∧ t.reg 2 = 0x01#8 ∧ t.pc = 0x202#16 := by decide

/-- 95_test_vectors.md section 2.1, X = 0xF (log entry 6). -/
theorem test_add_flag_last :
    (after (withRegs base [(0xF, 0x90#8)]) 0x8FF4).reg 0xF = 0x01#8 ∧
    (after (withRegs base [(1, 0xFF#8), (0xF, 0x01#8)]) 0x81F4).reg 1 = 0x00#8 := by decide

/-- 95_test_vectors.md section 2.1. -/
theorem test_sub_borrows :
    let t := after (withRegs base [(1, 0x12#8), (2, 0x34#8)]) 0x8125
    t.reg 1 = 0xDE#8 ∧ t.reg 0xF = 0x00#8 ∧ t.reg 2 = 0x34#8 ∧ t.pc = 0x202#16 := by decide

/-- 95_test_vectors.md section 2.1, X = Y. -/
theorem test_sub_equal :
    let t := after (withRegs base [(1, 0x77#8)]) 0x8115
    t.reg 1 = 0x00#8 ∧ t.reg 0xF = 0x01#8 := by decide

/-- 95_test_vectors.md section 2.1. -/
theorem test_subn_borrows :
    let t := after (withRegs base [(1, 0xFF#8), (2, 0x01#8)]) 0x8127
    t.reg 1 = 0x02#8 ∧ t.reg 0xF = 0x00#8 ∧ t.reg 2 = 0x01#8 ∧ t.pc = 0x202#16 := by decide

/-- 95_test_vectors.md section 2.1. -/
theorem test_subn_no_borrow :
    let t := after (withRegs base [(1, 0x01#8), (2, 0x80#8)]) 0x8127
    t.reg 1 = 0x7F#8 ∧ t.reg 0xF = 0x01#8 ∧ t.reg 2 = 0x80#8 ∧ t.pc = 0x202#16 := by decide

/-- 95_test_vectors.md section 2.1. -/
theorem test_shl_ignores_x :
    let t := after (withRegs base [(1, 0x80#8), (2, 0x80#8)]) 0x812E
    t.reg 1 = 0x00#8 ∧ t.reg 0xF = 0x01#8 ∧ t.reg 2 = 0x80#8 ∧ t.pc = 0x202#16 := by decide

/-- 95_test_vectors.md section 2.1, X = Y. -/
theorem test_shl_in_place :
    let t := after (withRegs base [(1, 0xC0#8)]) 0x811E
    t.reg 1 = 0x80#8 ∧ t.reg 0xF = 0x01#8 := by decide

/-- 95_test_vectors.md section 2.1. -/
theorem test_shr_ignores_x :
    let t := after (withRegs base [(1, 0xFF#8), (2, 0x80#8)]) 0x8126
    t.reg 1 = 0x40#8 ∧ t.reg 0xF = 0x00#8 ∧ t.reg 2 = 0x80#8 ∧ t.pc = 0x202#16 := by decide

/-- 95_test_vectors.md section 2.1, Y = 0xF. -/
theorem test_shr_from_flag :
    let t := after (withRegs base [(0xF, 0x03#8)]) 0x81F6
    t.reg 1 = 0x01#8 ∧ t.reg 0xF = 0x01#8 := by decide

/-- 95_test_vectors.md section 2.1, x[0xF] kept. -/
theorem test_or :
    let t := after (withRegs base [(1, 0xF0#8), (2, 0x3C#8), (0xF, 0x5A#8)]) 0x8121
    t.reg 1 = 0xFC#8 ∧ t.reg 0xF = 0x5A#8 ∧ t.pc = 0x202#16 := by decide

/-- 95_test_vectors.md section 2.1, x[0xF] kept. -/
theorem test_and :
    let t := after (withRegs base [(1, 0xF0#8), (2, 0x3C#8), (0xF, 0x5A#8)]) 0x8122
    t.reg 1 = 0x30#8 ∧ t.reg 0xF = 0x5A#8 ∧ t.pc = 0x202#16 := by decide

/-- 95_test_vectors.md section 2.1, x[0xF] kept. -/
theorem test_xor :
    let t := after (withRegs base [(1, 0xF0#8), (2, 0x3C#8), (0xF, 0x5A#8)]) 0x8123
    t.reg 1 = 0xCC#8 ∧ t.reg 0xF = 0x5A#8 ∧ t.pc = 0x202#16 := by decide

/-- 95_test_vectors.md section 2.1, X = 0xF. -/
theorem test_and_into_flag :
    (after (withRegs base [(0xF, 0xFF#8), (1, 0x0F#8)]) 0x8F12).reg 0xF = 0x0F#8 := by decide

/-- 95_test_vectors.md section 2.1. -/
theorem test_ldReg :
    let t := after (withRegs base [(1, 0x11#8), (2, 0x99#8), (0xF, 0x5A#8)]) 0x8120
    t.reg 1 = 0x99#8 ∧ t.reg 2 = 0x99#8 ∧ t.reg 0xF = 0x5A#8 := by decide

/-- 95_test_vectors.md section 2.1. -/
theorem test_ldByte :
    (after base 0x6A2A).reg 0xA = 0x2A#8 := by decide

/-- 95_test_vectors.md section 2.1. -/
theorem test_addByte_no_flag :
    let t := after (withRegs base [(5, 0xFE#8), (0xF, 0x07#8)]) 0x7503
    t.reg 5 = 0x01#8 ∧ t.reg 0xF = 0x07#8 := by decide

/-- 95_test_vectors.md section 2.1. -/
theorem test_addByte_flag_register :
    (after (withRegs base [(0xF, 0xFF#8)]) 0x7F01).reg 0xF = 0x00#8 := by decide

/-- 95_test_vectors.md section 2.2. -/
theorem test_jp :
    (after base 0x1ABC).pc = 0x0ABC#16 ∧ (after base 0x1201).pc = 0x0201#16 := by decide

/-- 95_test_vectors.md section 2.2: JP 0xFFF, then the next step. -/
theorem test_jp_out_of_memory_faults_next :
    let t := after base 0x1FFF
    t.pc = 0x0FFF#16 ∧ latch t = (.none, 0#16) ∧
    latch (nextOf (step t)) = (.addressFault, 0x1000#16) ∧ (nextOf (step t)).pc = 0x0FFF#16 := by decide

/-- 95_test_vectors.md section 2.2. -/
theorem test_jpV0 :
    (after (withRegs base [(0, 0x04#8)]) 0xB300).pc = 0x0304#16 := by decide

/-- 95_test_vectors.md section 2.2. -/
theorem test_jpV0_not_masked :
    (after (withRegs base [(0, 0xFF#8)]) 0xBFFF).pc = 0x10FE#16 := by decide

/-- 95_test_vectors.md section 2.2: CALL at 0x204 with SP = 15. -/
theorem test_call_deepest :
    let t := after { base with pc := 0x204#16, sp := 15 } 0x2300
    t.stack[15] = 0x0206#16 ∧ t.sp = 16 ∧ t.pc = 0x0300#16 ∧ latch t = (.none, 0#16) := by decide

/-- 95_test_vectors.md section 2.2: CALL at 0x204 with SP = 16. -/
theorem test_call_overflows :
    let t := after { base with pc := 0x204#16, sp := 16 } 0x2300
    latch t = (.stackOverflow, 0x0206#16) ∧ t.sp = 16 ∧ t.pc = 0x0204#16 ∧ t.stack[15] = 0#16 := by decide

/-- 95_test_vectors.md section 2.2. -/
theorem test_ret :
    let t := after { base with sp := 2, stack := (base.stack.set 0 0x0206#16).set 1 0x0404#16 } 0x00EE
    t.sp = 1 ∧ t.pc = 0x0404#16 ∧ t.stack[1] = 0x0404#16 := by decide

/-- 95_test_vectors.md section 2.2. -/
theorem test_ret_underflows :
    let t := after base 0x00EE
    latch t = (.stackUnderflow, 0#16) ∧ t.sp = 0 ∧ t.pc = 0x0200#16 := by decide

/-- 95_test_vectors.md section 2.2. -/
theorem test_seByte :
    (after base 0x3100).pc = 0x204#16 ∧ (after (withRegs base [(1, 0x01#8)]) 0x3100).pc = 0x202#16 := by decide

/-- 95_test_vectors.md section 2.2: at 0xFFE, not masked. -/
theorem test_seByte_at_the_top :
    (after { base with pc := 0xFFE#16 } 0x3000).pc = 0x1002#16 := by decide

/-- 95_test_vectors.md section 2.2. -/
theorem test_sneByte :
    (after (withRegs base [(1, 0xAB#8)]) 0x41AB).pc = 0x202#16 ∧
    (after (withRegs base [(1, 0xAC#8)]) 0x41AB).pc = 0x204#16 := by decide

/-- 95_test_vectors.md section 2.2. -/
theorem test_seReg :
    (after (withRegs base [(2, 0x7F#8), (3, 0x7F#8)]) 0x5230).pc = 0x204#16 ∧
    (after (withRegs base [(2, 0x7F#8), (3, 0x80#8)]) 0x5230).pc = 0x202#16 := by decide

/-- 95_test_vectors.md section 2.2. -/
theorem test_sneReg :
    (after (withRegs base [(2, 0x01#8), (3, 0x02#8)]) 0x9230).pc = 0x204#16 ∧
    (after base 0x9220).pc = 0x202#16 := by decide

/-- 95_test_vectors.md section 2.3. -/
theorem test_ldI :
    (after { base with index := 0xBEEF#16 } 0xA2F0).index = 0x02F0#16 := by decide

/-- 95_test_vectors.md S5, operation level. -/
theorem test_ldI_masks_a_wide_argument :
    (nextOf (exec (.ldI 0xFFFF#16) base)).index = 0x0FFF#16 := by decide

/-- 95_test_vectors.md section 2.3. -/
theorem test_addI_leaves_the_range :
    let t := after (withRegs { base with index := 0x0FFF#16 } [(2, 0x01#8)]) 0xF21E
    t.index = 0x1000#16 ∧ t.reg 0xF = 0x00#8 := by decide

/-- 95_test_vectors.md section 2.3. -/
theorem test_addI_wraps :
    (after (withRegs { base with index := 0xFFFF#16 } [(2, 0x02#8)]) 0xF21E).index = 0x0001#16 := by decide

/-- 95_test_vectors.md section 2.3 and S6. -/
theorem test_ldF :
    (after (withRegs base [(4, 0x0A#8)]) 0xF429).index = 0x0032#16 ∧
    (after (withRegs base [(4, 0xFF#8)]) 0xF429).index = 0x04FB#16 := by decide

/-- 95_test_vectors.md section 2.3. -/
theorem test_storeRegs_to_the_top :
    let t := after (withRegs { base with index := 0x0FFE#16 } [(0, 0x01#8), (1, 0x02#8)]) 0xF155
    t.byte 0xFFE = 0x01#8 ∧ t.byte 0xFFF = 0x02#8 ∧ t.index = 0x1000#16 ∧ latch t = (.none, 0#16) := by decide

/-- 95_test_vectors.md section 2.3. -/
theorem test_storeRegs_faults_whole :
    let t := after (withRegs { base with index := 0x0FFE#16 } [(0, 0x01#8)]) 0xF255
    latch t = (.addressFault, 0x1000#16) ∧ t.byte 0xFFE = 0x00#8 ∧ t.index = 0x0FFE#16 ∧
    latch (after { base with index := 0x2345#16 } 0xF055) = (.addressFault, 0x2345#16) := by decide

/-- 95_test_vectors.md section 2.3: glyph 0. -/
theorem test_loadRegs_font :
    let t := after (withRegs base [(5, 0x99#8)]) 0xF465
    [t.reg 0, t.reg 1, t.reg 2, t.reg 3, t.reg 4, t.reg 5] = [0xF0#8, 0x90#8, 0x90#8, 0x90#8, 0xF0#8, 0x99#8] ∧
    t.index = 0x0005#16 := by decide

/-- 95_test_vectors.md section 2.3. -/
theorem test_loadRegs_faults_whole :
    let t := after (withRegs { base with index := 0x0FF1#16 } [(0, 0x77#8)]) 0xFF65
    latch t = (.addressFault, 0x1000#16) ∧ t.reg 0 = 0x77#8 ∧ t.index = 0x0FF1#16 ∧
    (after { base with index := 0x0FF0#16 } 0xFF65).index = 0x1000#16 := by decide

/-- 95_test_vectors.md section 2.3. -/
theorem test_ldB :
    let t := after (withRegs { base with index := 0x0300#16 } [(0, 0xEA#8)]) 0xF033
    [t.byte 0x300, t.byte 0x301, t.byte 0x302] = [0x02#8, 0x03#8, 0x04#8] ∧ t.index = 0x0300#16 := by decide

/-- 95_test_vectors.md section 2.3. -/
theorem test_ldB_faults_whole :
    let t := after (withRegs { base with index := 0x0FFE#16 } [(0, 0xEA#8)]) 0xF033
    latch t = (.addressFault, 0x1000#16) ∧ t.byte 0xFFE = 0x00#8 ∧
    latch (after { base with index := 0x0FFD#16 } 0xF033) = (.none, 0#16) := by decide

/-- 95_test_vectors.md section 2.4. -/
theorem test_timers :
    (after (withRegs base [(3, 0x3C#8)]) 0xF315).dt = 0x3C#8 ∧
    (after (withRegs base [(3, 0x05#8)]) 0xF318).st = 0x05#8 ∧
    (after { base with dt := 0x2A#8 } 0xF407).reg 4 = 0x2A#8 := by decide

/-- 95_test_vectors.md section 2.4: with the mask 0x00 the result is 0x00 whatever the draw. -/
theorem test_rnd_mask_zero : (after base 0xC300).reg 3 = 0x00#8 := by
  show Config.rnd8 0 &&& 0x00#8 = 0x00#8
  simp

/-- 43_timers_random_display.md R145, R146: the draw is the next one, and is used up. -/
theorem test_rnd_draw :
    (after { base with draws := 7 } 0xC3FF).reg 3 = Config.rnd8 7 &&& 0xFF#8 ∧
      (after { base with draws := 7 } 0xC3FF).draws = 8 := ⟨rfl, rfl⟩

/-- 95_test_vectors.md section 2.4, from a state with a lit cell. -/
theorem test_cls :
    let t := after { base with disp := [(5, 0x01#8)] } 0x00E0
    t.readDisp 5 = .ok 0x00#8 ∧ t.pc = 0x202#16 ∧ t.readDisp 2048 = .error .outOfRange := by decide

/-- 95_test_vectors.md section 2.4. -/
theorem test_tick :
    let t := State.tick { base with dt := 0x03#8, st := 0x01#8 }
    t.dt = 0x02#8 ∧ t.st = 0x00#8 ∧ t.tick.st = 0x00#8 := by decide

/-- 95_test_vectors.md section 2.5. -/
theorem test_illegal_word :
    let t := after base 0xD123
    latch t = (.illegalInstruction, 0xD123#16) ∧ t.pc = 0x200#16 ∧ t.faultOutput = (3#3, 0xD123#16) := by decide

/-- 95_test_vectors.md section 2.5, 70_reset_and_hazards.md R192. -/
theorem test_reset_pc_runs_into_the_font :
    latch (nextOf (step { State.reset with started := true })) = (.illegalInstruction, 0xF090#16) := by decide

/-- A FONT whose first two bytes are 60 2A, LD V0, 0x2A. -/
def runnableFont : Font := (defaultFont.set 0 0x60#8).set 1 0x2A#8

/-- 93_implementation_defined.md U15: with an arbitrary FONT the reset pc runs whatever its first
bytes decode to; HostReset loads that FONT again (10_state.md R31). -/
theorem test_font_is_a_parameter :
    let s := { State.resetWith runnableFont with started := true }
    (nextOf (step s)).reg 0 = 0x2A#8 ∧ (nextOf (step s)).pc = 0x0002#16 ∧
    (State.hostReset { s with mem := s.mem.put s.font 0 0x00#8 }).readMem 0 = .ok 0x60#8 := by decide

/-- 70_reset_and_hazards.md R192: the boot of a two-byte image, then its first instruction. -/
theorem test_boot :
    let s := { State.reset with started := true, fault := .addressFault, agenda := bootMoves 0x200#16 [0x60#8, 0x2A#8] }
    let t := runSteps 4 s
    t.pc = 0x200#16 ∧ t.running = true ∧ latch t = (.none, 0#16) ∧ t.readMem 0x201 = .ok 0x2A#8 ∧
    (runSteps 5 s).reg 0 = 0x2A#8 := by decide

/-- 60_exceptions.md R177: with a dispatcher move and a tick over and over, DT reaches zero while the
program jumps to itself. -/
theorem test_ticks_keep_arriving :
    let s := { (base.withFetchWord 16 0x1200) with dt := 0x02#8, cycle := [.dispatch, .tick] }
    (runSteps 1 s).dt = 0x02#8 ∧ (runSteps 2 s).dt = 0x01#8 ∧ (runSteps 4 s).dt = 0x00#8 := by decide

/-- 10_state.md R25: the last pixel of row 1 is cell 127, and R1: 64 columns of 32 rows are 2048. -/
theorem test_pixel_position :
    State.readPixel { base with disp := [(127, 0x01#8)] } 63 1 = 0x01#8 ∧
    Config.dispCols * Config.dispRows = Config.dispSize := by decide

/-- 20_memory.md R52: the second step fetches what the first stored. -/
theorem test_self_modifying_fetch :
    let t := after (withRegs { base with index := 0x202#16 } [(0, 0x6A#8), (1, 0x77#8)]) 0xF155
    (nextOf (step t)).reg 0xA = 0x77#8 ∧ (nextOf (step t)).pc = 0x204#16 := by decide

/-- 95_test_vectors.md S4. -/
theorem test_host_start :
    let t := nextOf (step { State.reset with agenda := [.hostStart 0x1234#16] })
    t.pc = 0x0234#16 ∧ t.started = true ∧ t.agenda = [] := by decide

/-- 10_state.md R18, R32, R33, R35. -/
theorem test_port_errors :
    State.reset.readTop = .error .stackUnderflow ∧
    State.reset.readMem 0x1000 = .error .outOfRange ∧
    portError (State.hostWriteMem { base with started := true } 0x300#16 0x01#8) = some .notAccepted ∧
    portError (State.hostWriteMem base 0x1000#16 0x01#8) = some .outOfRange := by decide

/-! ### Witnesses: every statement's hypotheses are met by a concrete case, clause by clause -/

/-- A running dispatcher about to fetch `w`. -/
def ready (w : Nat) : State := base.withFetchWord 16 w

theorem test_witness_DecodeOfEncodeIsInstruction :
    (Instr.jp 0x0FFF#16).wellFormed = true ∧ (Instr.shl 0xF 0xF).wellFormed = true := by decide

theorem test_witness_EncodeOfDecodeIsWord :
    decodeWord 0xFF65#16 = .ok (.loadRegs 0xF) := by decide

theorem test_witness_WordSelectsTheRowItMatches :
    decodeWord 0x8AB4#16 = .ok (.addReg 0xA 0xB) ∧ rowOf (.addReg 0 0) ∈ opcodeRows ∧
    (rowOf (.addReg 0 0)).accepts 0x8AB4#16 = true := by decide

theorem test_witness_OpcodeRowsAreDisjoint :
    rowOf .cls ∈ opcodeRows ∧ (rowOf .cls).accepts 0x00E0#16 = true := by decide

theorem test_witness_IllegalWords_both_sides :
    decodeWord 0x0FFF#16 = .error (.absent .sys 0x0FFF#16) ∧ decodeWord 0x8128#16 = .error (.unassigned 0x8128#16) ∧
    decodeWord 0xDFFF#16 = .error (.absent .drw 0xDFFF#16) ∧ decodeWord 0xF165#16 = .ok (.loadRegs 1) := by decide

theorem test_witness_StepRunsTheDecodedInstruction :
    let s := { (ready 0x8124) with pc := 0x200#16 }
    s.running = true ∧ s.pc.toNat ≤ 0xFFE ∧ s.nextMove = .dispatch ∧ s.agenda = [] ∧ s.cycle = [] ∧
    decode [s.byte s.pc.toNat, s.byte (s.pc.toNat + 1)] = .ok (.addReg 1 2, []) := by decide

theorem test_witness_StepRunsTheDecodedInstruction_top :
    let s := { ({ base with pc := 0xFFE#16 }.withFetchWord 16 0x00E0) with agenda := [.dispatch, .tick] }
    s.running = true ∧ s.pc.toNat ≤ 0xFFE ∧ s.agenda = .dispatch :: [.tick] ∧
    decode [s.byte s.pc.toNat, s.byte (s.pc.toNat + 1)] = .ok (.cls, []) := by decide

theorem test_witness_NextMoveFromCycle :
    (State.nextMove { ready 0x8124 with cycle := [.dispatch, .tick] }) = .dispatch ∧
    (State.nextMove { ready 0x8124 with cycle := [.tick, .dispatch] }) = .tick ∧
    (State.nextMove { ready 0x8124 with agenda := [.dispatch], cycle := [.tick] }) = .dispatch := by decide

theorem test_witness_PlacedWordRunsNext :
    State.memCanonical { base with pc := 0x1000#16, fault := .addressFault } ∧ (Instr.call 0x0FFF#16).wellFormed = true := ⟨rfl, by decide⟩

theorem test_witness_FetchIsBigEndian :
    (ready 0x1234).pc.toNat ≤ 0xFFE ∧ State.pc { base with pc := 0xFFE#16 } = 0xFFE#16 := by decide

theorem test_witness_FetchAboveMemory :
    let s := { base with started := true, pc := 0xFFF#16 }
    let s' := { base with started := true, pc := 0x1000#16 }
    let p := { s with agenda := [.dispatch, .tick] }
    s.running = true ∧ s.nextMove = .dispatch ∧ 0xFFE < s.pc.toNat ∧
    s'.running = true ∧ s'.nextMove = .dispatch ∧ 0xFFE < s'.pc.toNat ∧
    p.running = true ∧ p.nextMove = .dispatch ∧ 0xFFE < p.pc.toNat := by decide

theorem test_witness_IllegalWordRaises :
    let s := ready 0xF10A
    let p := { s with agenda := [.dispatch, .tick] }
    p.running = true ∧ p.nextMove = .dispatch ∧ s.running = true ∧ s.nextMove = .dispatch ∧ s.pc.toNat ≤ 0xFFE ∧
    decodeWord (wordOfBytes (s.byte s.pc.toNat) (s.byte (s.pc.toNat + 1))) = .error (.absent .ldKey 0xF10A#16) := by decide

theorem test_witness_DisabledDispatcher :
    State.reset.started = false ∧ State.reset.agenda = [] ∧ State.reset.cycle = [] ∧ State.reset.nextMove = .dispatch ∧
    (let s := { base with started := true, fault := .stackOverflow, agenda := [.dispatch] };
      s.fault ≠ .none ∧ s.nextMove = .dispatch ∧ s.agenda = .dispatch :: []) := by decide

theorem test_witness_LatchedFaultStaysUntilReset :
    ∃ s t : State, s.fault ≠ .none ∧ step s = .next t ∧ s.nextMove ≠ .hostReset ∧ s.nextMove ≠ .tick :=
  ⟨{ base with started := true, fault := .addressFault, agenda := [.hostStart 0x200#16] }, _,
    by decide, rfl, by decide, by decide⟩

theorem test_witness_LatchedFault_tick :
    ∃ s t : State, s.fault ≠ .none ∧ step s = .next t ∧ s.nextMove ≠ .hostReset ∧
      s.dt = 0x01#8 ∧ t.dt = 0x00#8 :=
  ⟨{ base with started := true, fault := .addressFault, dt := 0x01#8, agenda := [.tick] }, _,
    by decide, rfl, by decide, rfl, by decide⟩

theorem test_witness_Faults_overflow :
    ∃ t, exec (.call 0x300#16) { base with sp := 16 } = .next t ∧ base.fault = .none ∧ t.fault ≠ .none :=
  ⟨_, rfl, rfl, by decide⟩

theorem test_witness_Faults_underflow :
    ∃ t, exec .ret base = .next t ∧ base.fault = .none ∧ t.fault ≠ .none := ⟨_, rfl, rfl, by decide⟩

theorem test_witness_Faults_address :
    (∃ t, exec (.storeRegs 1) { base with index := 0xFFF#16 } = .next t ∧ t.fault = .addressFault) ∧
    (∃ t, exec (.loadRegs 0) { base with index := 0x1000#16 } = .next t ∧ t.fault = .addressFault) ∧
    (∃ t, exec (.ldB 0) { base with index := 0xFFE#16 } = .next t ∧ t.fault = .addressFault) :=
  ⟨⟨_, rfl, by decide⟩, ⟨_, rfl, by decide⟩, ⟨_, rfl, by decide⟩⟩

theorem test_witness_Invariants :
    ∃ t, (ready 0xF355).memCanonical ∧ (ready 0xF355).displayDark ∧ (ready 0xF355).pcBounded ∧
      (ready 0xF355).latchConsistent ∧ step (ready 0xF355) = .next t :=
  ⟨_, rfl, fun _ => rfl, ⟨by decide, by decide⟩, ⟨by decide, by decide⟩, rfl⟩

theorem test_witness_PcBounded_top :
    ∃ t, State.pcBounded { ready 0x00EE with pc := 0xFFE#16, sp := 16, stack := Vector.replicate 16 0x1000#16 } ∧
      step { ready 0x00EE with sp := 16, stack := Vector.replicate 16 0x1000#16 } = .next t ∧ t.pc = 0x1000#16 :=
  ⟨_, ⟨by decide, by decide⟩, rfl, by decide⟩

theorem test_witness_HostReset :
    State.nextMove { base with fault := .stackUnderflow, agenda := [.hostReset, .tick] } = .hostReset := by decide

theorem test_witness_HostStart :
    (let s := { State.reset with agenda := [.hostStart 0x1234#16] };
      s.nextMove = .hostStart 0x1234#16 ∧ s.started = false ∧ s.fault = .none) ∧
    (let s := { base with started := true, agenda := [.hostStart 0x200#16] };
      s.nextMove = .hostStart 0x200#16 ∧ s.started = true) ∧
    (let s := { base with fault := .stackUnderflow, agenda := [.hostStart 0x200#16] };
      s.nextMove = .hostStart 0x200#16 ∧ s.fault ≠ .none) := by decide

theorem test_witness_HostWriteMem :
    (let s := { State.reset with agenda := [.hostWriteMem 0xFFF#16 0x01#8] };
      s.mem.wf s.font = true ∧ s.nextMove = .hostWriteMem 0xFFF#16 0x01#8 ∧ s.started = false ∧ s.fault = .none) ∧
    (let s := { base with started := true, agenda := [.hostWriteMem 0x300#16 0x01#8] };
      s.mem.wf s.font = true ∧ s.nextMove = .hostWriteMem 0x300#16 0x01#8 ∧ s.started = true) ∧
    (let s := { base with fault := .addressFault, agenda := [.hostWriteMem 0x300#16 0x01#8] };
      s.mem.wf s.font = true ∧ s.nextMove = .hostWriteMem 0x300#16 0x01#8 ∧ s.fault ≠ .none) ∧
    (let s := { State.reset with agenda := [.hostWriteMem 0x1000#16 0x01#8] };
      s.mem.wf s.font = true ∧ s.nextMove = .hostWriteMem 0x1000#16 0x01#8 ∧ 0xFFF < (0x1000#16).toNat) := by decide

theorem test_witness_Tick :
    State.nextMove { base with dt := 0x00#8, st := 0xFF#8, agenda := [.tick] } = .tick ∧
    State.nextMove { base with cycle := [.tick] } = .tick := by decide

theorem test_witness_ReadPorts :
    base.sp.val = 0 ∧ 0 < (State.sp { base with sp := 16 }).val := by decide

theorem test_witness_FlagWriters_destination : ∃ x : RegIx, x ≠ 0xF := ⟨0, by decide⟩

theorem test_witness_RegistersChange :
    ∃ t, exec (.addReg 1 2) base = .next t ∧ namesDestination 3 (.addReg 1 2) = false ∧
      namesDestination 0xF (.ldReg 1 2) = false ∧ writesFlag (.ldReg 1 2) = false :=
  ⟨_, rfl, by decide, by decide, by decide⟩

theorem test_witness_Call :
    base.sp.val < 16 ∧ (State.sp { base with sp := 15 }).val < 16 ∧ (State.sp { base with sp := 16 }).val = 16 := by decide

theorem test_witness_Return :
    0 < (State.sp { base with sp := 1 }).val ∧ base.sp.val = 0 := by decide

theorem test_witness_CallThenReturn :
    ∃ t, exec (.call 0x300#16) base = .next t ∧ base.sp.val < 16 ∧ ∃ u : State, u.sp = t.sp ∧ u.stack = t.stack :=
  ⟨_, rfl, by decide, _, rfl, rfl⟩

theorem test_witness_DataInMemory :
    State.memCanonical { base with index := 0x0FF0#16 } ∧
      (State.index { base with index := 0x0FF0#16 }).toNat + (0xF : RegIx).val ≤ 0xFFF ∧
      (State.index { base with index := 0x0FFD#16 }).toNat + 2 ≤ 0xFFF := ⟨rfl, by decide, by decide⟩

theorem test_witness_DataAboveMemory :
    0xFFF < (State.index { base with index := 0x0FFF#16 }).toNat + (1 : RegIx).val ∧
    0xFFF < (State.index { base with index := 0x0FFE#16 }).toNat + 2 ∧ 0xFFF < (0xFFFF#16).toNat + (0 : RegIx).val := by decide

theorem test_witness_RoundTrip :
    ∃ t, exec (.storeRegs 0xF) { base with index := 0x300#16 } = .next t ∧
      ∃ u : State, u.mem = t.mem ∧ u.font = t.font ∧ u.index = 0x300#16 :=
  ⟨_, rfl, { base with mem := _, index := 0x300#16 }, rfl, rfl, rfl⟩

theorem test_witness_StoredBytesAreFetched :
    ∃ t, exec (.storeRegs 1) { base with index := 0xFFE#16 } = .next t ∧
      (1 : RegIx).val = (0 : RegIx).val + 1 ∧ (1 : RegIx) ≤ 1 ∧
      ∃ u : State, u.mem = t.mem ∧ u.font = t.font ∧ u.pc.toNat = dataBase { base with index := 0xFFE#16 } + (0 : RegIx).val :=
  ⟨_, rfl, by decide, by decide, { base with mem := _, pc := 0xFFE#16 }, rfl, rfl, by decide⟩

theorem test_witness_ChangesOnlyByWriters :
    ∃ t, exec (.addByte 1 0x01#8) base = .next t ∧ (∀ x, Instr.addByte 1 0x01#8 ≠ .ldDtVx x) ∧
      (∀ x, Instr.addByte 1 0x01#8 ≠ .storeRegs x ∧ Instr.addByte 1 0x01#8 ≠ .ldB x) ∧
      Instr.addByte 1 0x01#8 ≠ .cls ∧ (∀ x kk, Instr.addByte 1 0x01#8 ≠ .rnd x kk) :=
  ⟨_, rfl, by simp, by simp, by simp, by simp⟩

theorem test_witness_ChangesOnlyByWriters_stack :
    ∃ t, exec (.ldByte 1 0x01#8) { base with sp := 3 } = .next t ∧ Instr.ldByte 1 0x01#8 ≠ .ret ∧
      (∀ a, Instr.ldByte 1 0x01#8 ≠ .call a) := ⟨_, rfl, by simp, by simp⟩

theorem test_witness_ChangesOnlyByWriters_index :
    ∃ t, exec (.ldB 0) { base with index := 0x0FFD#16 } = .next t ∧ (∀ a, Instr.ldB 0 ≠ .ldI a) ∧
      (∀ x, Instr.ldB 0 ≠ .addI x ∧ Instr.ldB 0 ≠ .ldF x ∧ Instr.ldB 0 ≠ .storeRegs x ∧ Instr.ldB 0 ≠ .loadRegs x) :=
  ⟨_, rfl, by simp, by simp⟩

theorem test_witness_ChangesOnlyByWriters_latch :
    ∃ t, exec (.jpV0 0xFFF#16) { base with fault := .addressFault, finfo := 0x1000#16 } = .next t ∧
      Instr.jpV0 0xFFF#16 ≠ .ret ∧ (∀ a, Instr.jpV0 0xFFF#16 ≠ .call a) ∧
      (∀ x, Instr.jpV0 0xFFF#16 ≠ .storeRegs x ∧ Instr.jpV0 0xFFF#16 ≠ .loadRegs x ∧ Instr.jpV0 0xFFF#16 ≠ .ldB x) :=
  ⟨_, rfl, by simp, by simp, by simp⟩

theorem test_witness_SoundTimer :
    (∃ t, exec (.addByte 1 0x01#8) base = .next t ∧ ∀ x, Instr.addByte 1 0x01#8 ≠ .ldStVx x) ∧
      ∃ t, exec (.ldStVx 1) base = .next t := ⟨⟨_, rfl, by simp⟩, _, rfl⟩

theorem test_witness_SoundTimer_step :
    (∃ t, step { ready 0xD123 with st := 0x05#8 } = .next t ∧ t.fault = .illegalInstruction) ∧
      (∃ t, step { base with agenda := [.tick], st := 0x05#8 } = .next t ∧ t.st = 0x04#8) ∧
      ∃ t, step { base with agenda := [.hostReset], st := 0x05#8 } = .next t ∧ t.st = 0x00#8 :=
  ⟨⟨_, rfl, by decide⟩, ⟨_, rfl, by decide⟩, _, rfl, by decide⟩

theorem test_witness_DeadStack :
    ∃ s s' t : State, s' = { s with stack := s'.stack } ∧ s'.stack ≠ s.stack ∧
      (∀ k : Fin 16, k.val < s.sp.val → s'.stack[k] = s.stack[k]) ∧ step s = .next t :=
  ⟨{ ready 0x00EE with sp := 1 },
    { ready 0x00EE with sp := 1, stack := (Vector.replicate 16 0#16).set 1 0x0BAD#16 }, _,
    rfl, by decide, by decide, rfl⟩

/-! A program that jumps to itself, under a fair schedule and under one without ticks. -/

/-- JP 0x200 at 0x200, DT at 3. -/
def jumping : State := { ready 0x1200 with dt := 0x03#8 }

/-- The dispatcher and the tick, turn about. -/
def turnAbout : Schedule := fun n => if n % 2 = 0 then .dispatch else .tick

theorem jumping_fetches : fetch jumping = .ok 0x1200#16 := by decide

theorem jumping_fetch (d : Byte) : fetch { jumping with dt := d } = .ok 0x1200#16 := jumping_fetches

theorem jumping_after (d : Byte) : State.after { jumping with dt := d } .dispatch = { jumping with dt := d } := by
  have hr : State.running { jumping with dt := d } = true := show jumping.running = true by decide
  have hp : jumping.pc = maskAddr 0x200#16 := by decide
  have hj : State.jump { jumping with dt := d } (maskAddr 0x200#16) = { jumping with dt := d } := by rw [← hp]; rfl
  rw [State.after, perform, dispatcherStep_of_running hr, fetchExecute, jumping_fetch]
  exact hj

theorem jumping_tick (d : Byte) : State.after { jumping with dt := d } .tick = { jumping with dt := timerTick d } := rfl

theorem jumping_run (σ : Schedule) (h : ∀ n, σ n = .dispatch ∨ σ n = .tick) (n : Nat) :
    ∃ d, runUnder σ n jumping = { jumping with dt := d } := by
  induction n with
  | zero => exact ⟨_, rfl⟩
  | succ n ih =>
    obtain ⟨d, hd⟩ := ih
    rw [runUnder, hd]
    rcases h n with e | e
    · rw [e]; exact ⟨d, jumping_after d⟩
    · rw [e]; exact ⟨_, jumping_tick d⟩

theorem test_witness_FairTicks :
    Fair turnAbout ∧ jumping.running = true ∧
      ∀ n x w, turnAbout n = .dispatch → (runUnder turnAbout n jumping).running = true →
        fetch (runUnder turnAbout n jumping) = .ok w → decodeWord w ≠ .ok (.ldDtVx x) := by
  refine ⟨fun n => ⟨2 * n + 1, by omega, by simp [turnAbout]⟩, by decide, fun n x w _ _ h => ?_⟩
  obtain ⟨d, hd⟩ := jumping_run turnAbout (fun n => by unfold turnAbout; split <;> simp) n
  rw [hd, jumping_fetch] at h
  cases h
  simp [show decodeWord 0x1200#16 = .ok (.jp 0x200#16) by decide]

theorem test_witness_NoTicks :
    (∀ n, (fun _ => Move.dispatch : Schedule) n ≠ .tick ∧ (fun _ => Move.dispatch : Schedule) n ≠ .hostReset) ∧
      ∀ n x w, fetch (runUnder (fun _ => .dispatch) n jumping) = .ok w → decodeWord w ≠ .ok (.ldDtVx x) := by
  refine ⟨by simp, fun n x w h => ?_⟩
  obtain ⟨d, hd⟩ := jumping_run (fun _ => .dispatch) (fun _ => .inl rfl) n
  rw [hd, jumping_fetch] at h
  cases h
  simp [show decodeWord 0x1200#16 = .ok (.jp 0x200#16) by decide]

/-- A state whose own steps are fair (log entry 3). -/
theorem test_cycle_is_fair : Fair (scheduleOf { jumping with cycle := [.dispatch, .tick] }) :=
  fair_of_cycle (by decide)

end Sys2Proof.Machine.Tests
end

section
/-!
What an instruction can do, said once: `ExecEffect`, the inversion of `exec` by the pieces of state
it writes. The frames and the invariants below are read off it.
-/
namespace Sys2Proof.Machine

/-! ### Address normalization -/

theorem maskAddr_toNat (a : Word) : (maskAddr a).toNat = a.toNat % 4096 := by
  rw [maskAddr, BitVec.toNat_and]
  exact Nat.and_two_pow_sub_one_eq_mod a.toNat 12

theorem maskAddr_toNat_lt (a : Word) : (maskAddr a).toNat < 4096 := by
  rw [maskAddr_toNat]; exact Nat.mod_lt _ (by decide)

/-- The sum of R101 is not masked, and stays at most 0xFFF + 0xFF (10_state.md R15). -/
theorem jumpV0Target_toNat_le (s : State) (a : Word) : (jumpV0Target s a).toNat ≤ 0x10FE := by
  have hm := maskAddr_toNat_lt a
  have hr := (s.reg 0).isLt
  rw [jumpV0Target, BitVec.toNat_add, BitVec.toNat_setWidth]
  omega

/-! ### The effect of an instruction -/

/-- Where an instruction that neither calls nor returns leaves the pc: at the next instruction, at
the one after it, or at a jump's target. -/
def NextPc (s : State) (p : Word) : Prop :=
  p = s.pc + 2#16 ∨ p = s.pc + 2#16 + 2#16 ∨ p.toNat ≤ 0x10FE

/-- The register file `r` agrees with that of `s` but where the table of 10_state.md lets `i` write. -/
def RegsKept (i : Instr) (s : State) (r : Vector Byte 16) : Prop :=
  ∀ q : RegIx, namesDestination q i = false → (q = 0xF → writesFlag i = false) → r[q] = s.regs[q]

/-- The instructions that can raise a fault of their own (60_exceptions.md R161, R162, R164). -/
def MayFault (i : Instr) : Prop :=
  i = .ret ∨ (∃ a, i = .call a) ∨ ∃ x, i = .storeRegs x ∨ i = .loadRegs x ∨ i = .ldB x

/-- The instructions that write I and nothing else but the pc (42_memory_index.md R120 to R122). -/
def SetsIndex (i : Instr) : Prop := (∃ a, i = .ldI a) ∨ ∃ x, i = .addI x ∨ i = .ldF x

/-- `ExecEffect s i t`: the instruction `i` can lead from `s` to `t`, one case per set of pieces of
state it writes. -/
inductive ExecEffect (s : State) : Instr → State → Prop
  | regs {i : Instr} {r : Vector Byte 16} {p : Word} (hr : RegsKept i s r) (hp : NextPc s p) :
      ExecEffect s i { s with regs := r, pc := p }
  | rnd {x : RegIx} {kk : Byte} :
      ExecEffect s (.rnd x kk)
        { s with regs := (s.setReg x (Config.rnd8 s.draws &&& kk)).regs, draws := s.draws + 1,
                 pc := s.npc }
  | cls : ExecEffect s .cls { s with disp := Display.blank, pc := s.npc }
  | delay {x : RegIx} : ExecEffect s (.ldDtVx x) { s with dt := s.reg x, pc := s.npc }
  | sound {x : RegIx} : ExecEffect s (.ldStVx x) { s with st := s.reg x, pc := s.npc }
  | index {i : Instr} {n : Word} (hi : SetsIndex i) :
      ExecEffect s i { s with index := n, pc := s.npc }
  | call {a : Word} (hl : s.sp.val < 16) :
      ExecEffect s (.call a)
        { s with stack := s.stack.set s.sp.val s.npc hl, sp := ⟨s.sp.val + 1, by omega⟩,
                 pc := maskAddr a }
  | ret (hl : 0 < s.sp.val) :
      ExecEffect s .ret
        { s with sp := ⟨s.sp.val - 1, by omega⟩, pc := s.stack[s.sp.val - 1] }
  | store {x : RegIx} (hx : dataBase s + bulkCount x ≤ 4096) :
      ExecEffect s (.storeRegs x)
        { s with mem := (s.storeBytes (dataBase s) (bulkValues s x)).mem,
                 index := s.index + BitVec.ofNat 16 (bulkCount x), pc := s.npc }
  | load {x : RegIx} (hx : dataBase s + bulkCount x ≤ 4096) :
      ExecEffect s (.loadRegs x)
        { s with regs := bulkLoaded s x (dataBase s),
                 index := s.index + BitVec.ofNat 16 (bulkCount x), pc := s.npc }
  | digits {x : RegIx} (hx : dataBase s + 3 ≤ 4096) :
      ExecEffect s (.ldB x)
        { s with mem := (s.storeBytes (dataBase s) (decimalDigits (s.reg x))).mem, pc := s.npc }
  | fault {i : Instr} {e : Raised} (hi : MayFault i) (he : e.cause ≠ .none) :
      ExecEffect s i (s.raise e)

variable {s t : State} {i : Instr}

/-- A write of a destination the instruction names. -/
theorem ExecEffect.setReg {x : RegIx} {v : Byte} (hx : namesDestination x i = true) :
    ExecEffect s i (s.setReg x v).advance := by
  refine .regs (r := (s.setReg x v).regs) (fun q hq _ => ?_) (.inl rfl)
  have hne : q ≠ x := fun e => by simp [e, hx] at hq
  exact State.reg_setReg_ne s x q v hne

/-- A result and its flag, by one of the five flag writers. -/
theorem ExecEffect.setResultFlag {x : RegIx} {v f : Byte} (hx : namesDestination x i = true)
    (hf : writesFlag i = true) : ExecEffect s i (s.setResultFlag x v f).advance := by
  refine .regs (r := (s.setResultFlag x v f).regs) (fun q hq hqf => ?_) (.inl rfl)
  have hne : q ≠ x := fun e => by simp [e, hx] at hq
  have hnf : q ≠ flagReg := fun e => by simp [hqf e] at hf
  exact (State.reg_setResultFlag s x q v f).trans (by rw [if_neg hnf, if_neg hne]; rfl)

theorem ExecEffect.jump {p : Word} (hp : NextPc s p) : ExecEffect s i (s.jump p) :=
  .regs (fun _ _ _ => rfl) hp

theorem ExecEffect.skipIf {p : Bool} : ExecEffect s i (s.skipIf p) := by
  cases p
  · exact .jump (.inl rfl)
  · exact .jump (.inr (.inl rfl))

/-- Whatever an instruction answers is one of its effects. -/
theorem execEffect_of_exec (h : exec i s = .next t) : ExecEffect s i t := by
  cases i with
  | cls => cases h; exact .cls
  | rnd x kk => cases h; exact .rnd
  | ldDtVx x => cases h; exact .delay
  | ldStVx x => cases h; exact .sound
  | ldI a => cases h; exact .index (.inl ⟨a, rfl⟩)
  | addI x => cases h; exact .index (.inr ⟨x, .inl rfl⟩)
  | ldF x => cases h; exact .index (.inr ⟨x, .inr rfl⟩)
  | addReg x y | sub x y | subn x y | shl x y | shr x y =>
    cases h; exact .setResultFlag (by simp [namesDestination]) rfl
  | ldByte x _ | addByte x _ | ldReg x _ | or x _ | and x _ | xor x _ | ldVxDt x =>
    cases h; exact .setReg (by simp [namesDestination])
  | seByte x kk | sneByte x kk | seReg x y | sneReg x y => cases h; exact .skipIf
  | jp a =>
    cases h
    have := maskAddr_toNat_lt a
    exact .jump (.inr (.inr (by omega)))
  | jpV0 a => cases h; exact .jump (.inr (.inr (jumpV0Target_toNat_le s a)))
  | call a =>
    rcases settle_map_cases h with ⟨u, hu, rfl⟩ | ⟨e, he, rfl⟩
    · obtain ⟨hl, rfl⟩ := push_ok hu; exact .call hl
    · exact .fault (.inr (.inl ⟨a, rfl⟩)) (by simp [(push_error he).2])
  | ret =>
    rcases settle_map_cases h with ⟨u, hu, rfl⟩ | ⟨e, he, rfl⟩
    · obtain ⟨hl, rfl⟩ := pop_ok hu; exact .ret hl
    · exact .fault (.inl rfl) (by simp [(pop_error he).2])
  | storeRegs x =>
    rcases settle_map_cases h with ⟨u, hu, rfl⟩ | ⟨e, he, rfl⟩
    · have := checkRange_ok hu; exact .store (by simp only [bulkCount] at *; omega)
    · exact .fault (.inr (.inr ⟨x, .inl rfl⟩)) (by simp [(checkRange_error he).2])
  | loadRegs x =>
    rcases settle_map_cases h with ⟨u, hu, rfl⟩ | ⟨e, he, rfl⟩
    · have := checkRange_ok hu
      simp only [State.advance, State.npc]
      exact .load (by simp only [bulkCount] at *; omega)
    · exact .fault (.inr (.inr ⟨x, .inr (.inl rfl)⟩)) (by simp [(checkRange_error he).2])
  | ldB x =>
    rcases settle_map_cases h with ⟨u, hu, rfl⟩ | ⟨e, he, rfl⟩
    · have := checkRange_ok hu
      simp only [State.advance, State.npc, State.storeBytes]
      exact .digits (by omega)
    · exact .fault (.inr (.inr ⟨x, .inr (.inr rfl)⟩)) (by simp [(checkRange_error he).2])

end Sys2Proof.Machine
end

section
/-!
Frames: which instruction writes which piece of state (10_state.md), read off `ExecEffect`.
-/
namespace Sys2Proof.Machine

variable {s t : State} {i : Instr}

theorem ExecEffect.mem_eq (h : ExecEffect s i t) (hi : ∀ x, i ≠ .storeRegs x ∧ i ≠ .ldB x) :
    t.mem = s.mem := by
  cases h with
  | @store x _ => exact absurd rfl (hi x).1
  | @digits x _ => exact absurd rfl (hi x).2
  | _ => rfl

theorem ExecEffect.disp_eq (h : ExecEffect s i t) (hi : i ≠ .cls) : t.disp = s.disp := by
  cases h with
  | cls => exact absurd rfl hi
  | _ => rfl

theorem ExecEffect.stack_eq (h : ExecEffect s i t) (hi : ∀ a, i ≠ .call a) : t.stack = s.stack := by
  cases h with
  | @call a _ => exact absurd rfl (hi a)
  | _ => rfl

theorem ExecEffect.sp_eq (h : ExecEffect s i t) (hr : i ≠ .ret) (hc : ∀ a, i ≠ .call a) :
    t.sp = s.sp := by
  cases h with
  | ret => exact absurd rfl hr
  | @call a _ => exact absurd rfl (hc a)
  | _ => rfl

theorem ExecEffect.index_eq (h : ExecEffect s i t) (ha : ∀ a, i ≠ .ldI a)
    (hx : ∀ x, i ≠ .addI x ∧ i ≠ .ldF x ∧ i ≠ .storeRegs x ∧ i ≠ .loadRegs x) :
    t.index = s.index := by
  cases h with
  | index hi =>
    obtain ⟨a, rfl⟩ | ⟨x, hi⟩ := hi
    · exact absurd rfl (ha a)
    · obtain ⟨hadd, hglyph, -⟩ := hx x
      exact absurd hi (not_or.2 ⟨hadd, hglyph⟩)
  | @store x _ => obtain ⟨-, -, hstore, -⟩ := hx x; exact absurd rfl hstore
  | @load x _ => obtain ⟨-, -, -, hload⟩ := hx x; exact absurd rfl hload
  | _ => rfl

/-- The latch after an instruction: as before, or holding a fault that instruction can raise. -/
theorem ExecEffect.latch_cases (h : ExecEffect s i t) :
    (t.fault = s.fault ∧ t.finfo = s.finfo) ∨ (MayFault i ∧ t.fault ≠ .none) := by
  cases h with
  | fault hi he => exact .inr ⟨hi, he⟩
  | _ => exact .inl ⟨rfl, rfl⟩

theorem ExecEffect.draws_eq (h : ExecEffect s i t) (hi : ∀ x kk, i ≠ .rnd x kk) :
    t.draws = s.draws := by
  cases h with
  | @rnd x kk => exact absurd rfl (hi x kk)
  | _ => rfl

theorem ExecEffect.dt_eq (h : ExecEffect s i t) (hi : ∀ x, i ≠ .ldDtVx x) : t.dt = s.dt := by
  cases h with
  | @delay x => exact absurd rfl (hi x)
  | _ => rfl

theorem ExecEffect.st_eq (h : ExecEffect s i t) (hi : ∀ x, i ≠ .ldStVx x) : t.st = s.st := by
  cases h with
  | @sound x => exact absurd rfl (hi x)
  | _ => rfl

/-- What no instruction writes: the started bit, FONT and the moves to come. -/
theorem ExecEffect.fixed (h : ExecEffect s i t) :
    t.started = s.started ∧ t.font = s.font ∧ t.agenda = s.agenda ∧ t.cycle = s.cycle := by
  cases h <;> exact ⟨rfl, rfl, rfl, rfl⟩

/-- A data register keeps its value where the table of 10_state.md lets the instruction write none. -/
theorem ExecEffect.reg_eq (h : ExecEffect s i t) {r : RegIx} (hr : namesDestination r i = false)
    (hf : r = 0xF → writesFlag i = false) : t.reg r = s.reg r := by
  cases h with
  | regs hk hp => exact hk r hr hf
  | @rnd x kk => exact State.reg_setReg_ne s x r _ (by simpa [namesDestination] using hr)
  | @load x hx =>
    have hlt : ¬ r ≤ x := by simpa [namesDestination] using hr
    simp [State.reg, bulkLoaded, hlt]
  | _ => rfl

/-- Settles O58: each clause is the frame of one piece of state. -/
theorem stateChangesOnlyByItsWriters : Obligations.StateChangesOnlyByItsWriters := by
  intro i s t h
  have he := execEffect_of_exec h
  refine ⟨he.mem_eq, he.disp_eq, he.stack_eq, he.sp_eq, he.index_eq, fun hr hc hx => ?_,
    he.draws_eq, he.fixed⟩
  obtain hl | ⟨hm, -⟩ := he.latch_cases
  · exact hl
  · obtain rfl | ⟨a, rfl⟩ | ⟨x, hi⟩ := hm
    · exact absurd rfl hr
    · exact absurd rfl (hc a)
    · obtain ⟨hs, hl, hb⟩ := hx x
      exact absurd hi (by simp [hs, hl, hb])

/-- Settles O54: DT and ST are written by one instruction each. -/
theorem timersChangeOnlyByTheirWriters : Obligations.TimersChangeOnlyByTheirWriters :=
  fun _ _ _ h => ⟨(execEffect_of_exec h).dt_eq, (execEffect_of_exec h).st_eq⟩

/-- Settles O36: every effect keeps each register that the table does not let the instruction write. -/
theorem registersChangeOnlyByTheirWriters : Obligations.RegistersChangeOnlyByTheirWriters :=
  fun _ _ _ _ h hr hf => (execEffect_of_exec h).reg_eq hr hf

end Sys2Proof.Machine
end

section
/-!
The invariants of Safety.lean at reset, and that every step keeps three of them.
-/
namespace Sys2Proof.Machine

variable {s t : State} {i : Instr}

/-! ### The display (10_state.md R26) -/

theorem ExecEffect.disp_cases (h : ExecEffect s i t) : t.disp = s.disp ∨ t.disp = Display.blank := by
  cases h with
  | cls => exact .inr rfl
  | _ => exact .inl rfl

/-- A step leaves the display buffer as it is or blanks it: nothing draws (43 R148, R149). -/
theorem step_disp_cases (h : step s = .next t) : t.disp = s.disp ∨ t.disp = Display.blank := by
  obtain rfl | rfl | rfl | ⟨-, _, rfl⟩ | ⟨-, _, _, -, rfl⟩ | ⟨-, _, -, rfl⟩ | ⟨-, -, _, he⟩ :=
    step_cases h
  · exact .inl rfl
  · exact .inl rfl
  · exact .inr rfl
  · exact .inl rfl
  · exact .inl rfl
  · exact .inl rfl
  · exact (execEffect_of_exec he).disp_cases

/-- Settles O18: the buffer is kept or blanked, and a blank buffer is dark. -/
theorem stepKeepsDisplayDark : Obligations.StepKeepsDisplayDark := by
  intro s t hs h k
  obtain hd | hd := step_disp_cases h
  · rw [hd]; exact hs k
  · rw [hd]; rfl

/-! ### The pc and the live return addresses (10_state.md R15) -/

/-- The pc moved to a bounded address, the stack kept. -/
theorem State.pcBounded.of_pc (hs : s.pcBounded) (hp : t.pc.toNat ≤ 0x10FE) (hsp : t.sp = s.sp)
    (hst : t.stack = s.stack) : t.pcBounded := by
  refine ⟨hp, ?_⟩
  rw [hsp, hst]; exact hs.2

theorem NextPc.toNat_le {p : Word} (h : NextPc s p) (hf : s.pc.toNat ≤ 0xFFE) :
    p.toNat ≤ 0x10FE := by
  obtain rfl | rfl | h := h
  · bv_omega
  · bv_omega
  · exact h

/-- An instruction fetched from memory keeps the bounds: the return address a CALL pushes is at
most 0x1000, and a RET takes a live one. -/
theorem ExecEffect.pcBounded (h : ExecEffect s i t) (hf : s.pc.toNat ≤ 0xFFE) (hs : s.pcBounded) :
    t.pcBounded := by
  have hadv : s.npc.toNat ≤ 0x10FE := NextPc.toNat_le (.inl rfl) hf
  cases h with
  | regs hr hp => exact hs.of_pc (hp.toNat_le hf) rfl rfl
  | @call a hl =>
    have ha := maskAddr_toNat_lt a
    refine ⟨by show (maskAddr a).toNat ≤ _; omega, fun k hk => ?_⟩
    have hnpc : s.npc.toNat ≤ 0x1000 := by rw [State.npc]; bv_omega
    simp only [Fin.getElem_fin, Vector.getElem_set]
    split
    · exact hnpc
    · exact hs.2 k (by simp only at hk; omega)
  | ret hl =>
    have hlt : s.sp.val - 1 < 16 := by omega
    have htop : s.stack[s.sp.val - 1].toNat ≤ 0x1000 := hs.2 ⟨s.sp.val - 1, hlt⟩ (by simp only; omega)
    exact ⟨by show s.stack[s.sp.val - 1].toNat ≤ _; omega,
      fun k hk => hs.2 k (by simp only at hk; omega)⟩
  | fault => exact hs
  | _ => exact hs.of_pc hadv rfl rfl

/-- Nothing is live on an empty stack. -/
theorem State.pcBounded_of_empty (hp : s.pc.toNat ≤ 0x10FE) (hsp : s.sp = 0) : s.pcBounded :=
  ⟨hp, fun k hk => by simp [hsp] at hk⟩

/-- Settles O19: only a fetch at 0xFFE or below runs an instruction, so a pc grows to 0x1002 at
most and the largest jump is that of JP V0. -/
theorem stepKeepsPcBounded : Obligations.StepKeepsPcBounded := by
  intro s t hs h
  have hs' : s.taken.pcBounded := hs
  obtain rfl | rfl | rfl | ⟨-, entry, rfl⟩ | ⟨-, _, _, -, rfl⟩ | ⟨-, _, -, rfl⟩ | ⟨-, hf, i, he⟩ :=
    step_cases h
  · exact hs'
  · exact hs'
  · exact State.pcBounded_of_empty (Nat.zero_le _) rfl
  · have := maskAddr_toNat_lt entry
    exact hs'.of_pc (by show (maskAddr entry).toNat ≤ _; omega) rfl rfl
  · exact hs'
  · exact hs'
  · exact (execEffect_of_exec he).pcBounded hf hs'

/-! ### The fault latch (10_state.md R27) -/

/-- A fault latched in a started dispatcher is consistent, whatever its information. -/
theorem State.latchConsistent_of_fault (hf : t.fault ≠ .none) (hs : t.started = true) :
    t.latchConsistent := ⟨fun h => absurd h hf, fun _ => hs⟩

theorem State.started_of_running (h : s.running = true) : s.started = true := by
  rw [State.running, Bool.and_eq_true] at h; exact h.1

/-- Settles O20: a fault is latched by a running dispatcher only, and only HostReset clears it. -/
theorem stepKeepsLatchConsistent : Obligations.StepKeepsLatchConsistent := by
  intro s t hs h
  have hs' : s.taken.latchConsistent := hs
  obtain rfl | rfl | rfl | ⟨-, entry, rfl⟩ | ⟨-, _, _, -, rfl⟩ | ⟨hr, e, hc, rfl⟩ | ⟨hr, -, i, he⟩ :=
    step_cases h
  · exact hs'
  · exact hs'
  · exact ⟨fun _ => rfl, fun hf => absurd rfl hf⟩
  · exact ⟨hs'.1, fun _ => rfl⟩
  · exact hs'
  · exact State.latchConsistent_of_fault hc (State.started_of_running (s := s.taken) hr)
  · have heff := execEffect_of_exec he
    obtain ⟨hst, -⟩ := heff.fixed
    obtain ⟨hf, hi⟩ | ⟨-, hne⟩ := heff.latch_cases
    · rw [State.latchConsistent, hf, hi, hst]; exact hs'
    · exact State.latchConsistent_of_fault hne (hst.trans (State.started_of_running hr))

/-! ### At reset (10_state.md R30) -/

/-- The reset state of every FONT meets the four invariants. -/
theorem State.resetWith_invariants (font : Font) :
    (State.resetWith font).memCanonical ∧ (State.resetWith font).displayDark ∧
      (State.resetWith font).pcBounded ∧ (State.resetWith font).latchConsistent :=
  ⟨Memory.reset_wf, fun _ => rfl, State.pcBounded_of_empty (Nat.zero_le _) rfl,
    fun _ => rfl, fun h => absurd rfl h⟩

/-- Settles O16: the default FONT is one case of every FONT. -/
theorem resetMeetsTheInvariants : Obligations.ResetMeetsTheInvariants :=
  ⟨State.resetWith_invariants defaultFont, State.resetWith_invariants⟩

end Sys2Proof.Machine
end

section
/-!
The two pieces of state that influence nothing else: the sound timer (10_state.md R20) and the
stack entries at or above SP (R17). One run is followed by another from a state that differs in
these alone.
-/
namespace Sys2Proof.Machine

variable {s t : State} {v : Byte} {k : Vector Word 16}

/-- The state with another sound timer and other stack entries. -/
def State.withUnread (s : State) (v : Byte) (k : Vector Word 16) : State :=
  { s with st := v, stack := k }

/-- The stack entries `k` stand below SP where those of `s` do. -/
def LiveAgree (s : State) (k : Vector Word 16) : Prop :=
  ∀ j : Fin 16, j.val < s.sp.val → k[j] = s.stack[j]

/-- The outcome `o` is `t` but for the sound timer and dead stack entries, and where the two states
before (`s` and `s.withUnread v k`) agreed on the one or the other, so do these. -/
def Follows (s : State) (v : Byte) (k : Vector Word 16) (t : State)
    (o : Host.Outcome State Fault Refusal) : Prop :=
  ∃ v' k', o = .next (t.withUnread v' k') ∧ LiveAgree t k' ∧
    (v = s.st → v' = t.st) ∧ (k = s.stack → k' = t.stack)

/-- A move that touches neither the sound timer nor the stack. -/
theorem Follows.of_kept {o : Host.Outcome State Fault Refusal} (ho : o = .next (t.withUnread v k))
    (hk : LiveAgree s k) (hst : t.st = s.st) (hsp : t.sp = s.sp) (hstack : t.stack = s.stack) :
    Follows s v k t o := by
  refine ⟨v, k, ho, fun j hj => ?_, fun h => h.trans hst.symm, fun h => h.trans hstack.symm⟩
  rw [hsp] at hj
  rw [hstack]; exact hk j hj

/-- A conditional skip reads neither. -/
theorem Follows.skipIf (hk : LiveAgree s k) (p : Bool) :
    Follows s v k (s.skipIf p) (.next ((s.withUnread v k).skipIf p)) := by
  cases p <;> exact .of_kept rfl hk rfl rfl rfl

/-- An instruction's end that reads neither: the state made or the fault taken. -/
theorem settle_withUnread {α : Type} {r : Except Raised α} {f g : α → State}
    (h : settle s (r.map f) = .next t) (hfg : ∀ a, g a = (f a).withUnread v k) :
    settle (s.withUnread v k) (r.map g) = .next (t.withUnread v k) := by
  obtain ⟨a, rfl, rfl⟩ | ⟨e, rfl, rfl⟩ := settle_map_cases h
  · exact congrArg Host.Outcome.next (hfg a)
  · rfl

/-- An instruction that runs alike on both states and writes neither (`ExecEffect`). -/
theorem Follows.of_exec {i : Instr} (hk : LiveAgree s k) (h : exec i s = .next t)
    (ho : exec i (s.withUnread v k) = .next (t.withUnread v k))
    (hst : ∀ x, i ≠ .ldStVx x) (hr : i ≠ .ret) (hc : ∀ a, i ≠ .call a) :
    Follows s v k t (exec i (s.withUnread v k)) :=
  have he := execEffect_of_exec h
  .of_kept ho hk (he.st_eq hst) (he.sp_eq hr hc) (he.stack_eq hc)

theorem LiveAgree.top (hk : LiveAgree s k) (hl : 0 < s.sp.val) :
    k[s.sp.val - 1] = s.stack[s.sp.val - 1] :=
  hk ⟨s.sp.val - 1, by omega⟩ (by simp only; omega)

/-- A push of the same word: the slot at SP becomes live and agrees again. -/
theorem LiveAgree.push (hk : LiveAgree s k) (w : Word) (hl : s.sp.val < 16) (j : Fin 16)
    (hj : j.val < s.sp.val + 1) : (k.set s.sp.val w hl)[j] = (s.stack.set s.sp.val w hl)[j] := by
  simp only [Fin.getElem_fin, Vector.getElem_set]
  split
  · rfl
  · exact hk j (by omega)

/-- CALL writes the same return address on either stack. -/
theorem Follows.call (hk : LiveAgree s k) (a : Word) (h : exec (.call a) s = .next t) :
    Follows s v k t (exec (.call a) (s.withUnread v k)) := by
  by_cases hl : s.sp.val < 16
  · simp only [exec, execCall, State.push_of_lt hl, State.push_of_lt (s := s.withUnread v k) hl] at h ⊢
    cases h
    exact ⟨v, k.set s.sp.val s.npc hl, rfl, hk.push s.npc hl, id, fun e => by rw [e]; rfl⟩
  · simp only [exec, execCall, State.push_of_full hl,
      State.push_of_full (s := s.withUnread v k) hl] at h ⊢
    cases h
    exact .of_kept rfl hk rfl rfl rfl

/-- RET takes a live entry, the same on either stack. -/
theorem Follows.ret (hk : LiveAgree s k) (h : exec .ret s = .next t) :
    Follows s v k t (exec .ret (s.withUnread v k)) := by
  by_cases hl : 0 < s.sp.val
  · simp only [exec, execRet, State.pop_of_pos hl, State.pop_of_pos (s := s.withUnread v k) hl] at h ⊢
    cases h
    refine ⟨v, k, ?_, fun j hj => hk j (by simp only [State.jump_sp] at hj; omega), id, id⟩
    simp only [State.withUnread, hk.top hl]; rfl
  · simp only [exec, execRet, State.pop_of_empty hl,
      State.pop_of_empty (s := s.withUnread v k) hl] at h ⊢
    cases h
    exact .of_kept rfl hk rfl rfl rfl

/-- Every instruction: LD ST, Vx overwrites the sound timer, CALL and RET use live entries alone,
and no other instruction names either. -/
theorem exec_follows (i : Instr) (hk : LiveAgree s k) (h : exec i s = .next t) :
    Follows s v k t (exec i (s.withUnread v k)) := by
  cases i with
  | call a => exact .call hk a h
  | ret => exact .ret hk h
  | ldStVx x => cases h; exact ⟨s.reg x, k, rfl, hk, fun _ => rfl, id⟩
  | seByte x kk | sneByte x kk | seReg x y | sneReg x y => cases h; exact .skipIf hk _
  | storeRegs x | loadRegs x | ldB x =>
    exact .of_exec hk h (settle_withUnread h fun _ => rfl) (by simp) (by simp) (by simp)
  | _ => cases h; exact .of_kept rfl hk rfl rfl rfl

theorem dispatcherStep_follows (hk : LiveAgree s k) (h : dispatcherStep s = .next t) :
    Follows s v k t (dispatcherStep (s.withUnread v k)) := by
  by_cases hr : s.running = true
  · rw [dispatcherStep_of_running hr, fetchExecute] at h
    rw [dispatcherStep_of_running (s := s.withUnread v k) hr, fetchExecute,
      show fetch (s.withUnread v k) = fetch s from rfl]
    cases hf : fetch s with
    | error e => rw [hf] at h; cases h; exact .of_kept rfl hk rfl rfl rfl
    | ok w =>
      simp only [hf] at h ⊢
      cases hd : decodeWord w with
      | error e => rw [hd] at h; cases h; exact .of_kept rfl hk rfl rfl rfl
      | ok i => rw [hd] at h; exact exec_follows i hk h
  · have hr' : s.running = false := by simpa using hr
    rw [dispatcherStep_of_not_running hr'] at h
    rw [dispatcherStep_of_not_running (s := s.withUnread v k) hr']
    cases h; exact .of_kept rfl hk rfl rfl rfl

/-- A host write of memory reads neither. -/
theorem Follows.hostWriteMem (hk : LiveAgree s k) (a : Word) (b : Byte) :
    Follows s v k (s.accept (s.hostWriteMem a b))
      (.next ((s.withUnread v k).accept ((s.withUnread v k).hostWriteMem a b))) := by
  by_cases hs : s.stopped = true
  · have hs' : (s.withUnread v k).stopped = true := hs
    by_cases ha : a.toNat ≤ 0xFFF
    · simp only [State.hostWriteMem, hs, hs', memWrite_of_le ha, if_true]
      exact .of_kept rfl hk rfl rfl rfl
    · simp only [State.hostWriteMem, hs, hs', memWrite_of_gt (Nat.lt_of_not_le ha), if_true]
      exact .of_kept rfl hk rfl rfl rfl
  · have hs' : ¬(s.withUnread v k).stopped = true := hs
    simp only [State.hostWriteMem, if_neg hs, if_neg hs']
    exact .of_kept rfl hk rfl rfl rfl

theorem Follows.hostStart (hk : LiveAgree s k) (entry : Word) :
    Follows s v k (s.accept (s.hostStart entry))
      (.next ((s.withUnread v k).accept ((s.withUnread v k).hostStart entry))) := by
  by_cases hs : s.stopped = true
  · simp only [State.hostStart, if_pos hs, if_pos (show (s.withUnread v k).stopped = true from hs)]
    exact .of_kept rfl hk rfl rfl rfl
  · simp only [State.hostStart, if_neg hs, if_neg (show ¬(s.withUnread v k).stopped = true from hs)]
    exact .of_kept rfl hk rfl rfl rfl

/-- Every move: a tick lowers either sound timer on its own, HostReset sets both pieces anew. -/
theorem perform_follows (m : Move) (hk : LiveAgree s k) (h : perform m s = .next t) :
    Follows s v k t (perform m (s.withUnread v k)) := by
  cases m with
  | dispatch => exact dispatcherStep_follows hk h
  | tick => cases h; exact ⟨timerTick v, k, rfl, hk, congrArg timerTick, id⟩
  | hostReset => cases h; exact ⟨_, _, rfl, fun _ _ => rfl, fun _ => rfl, fun _ => rfl⟩
  | hostStart entry => cases h; exact .hostStart hk entry
  | hostWriteMem a b => cases h; exact .hostWriteMem hk a b

/-- Every step of the machine, whichever move is next. -/
theorem step_follows (hk : LiveAgree s k) (h : step s = .next t) :
    Follows s v k t (step (s.withUnread v k)) :=
  perform_follows (s := s.taken) s.nextMove hk h

/-! ### The two statements -/

/-- An outcome that follows from a state with the same stack differs in the sound timer at most. -/
theorem Follows.eq_but_sound {o : Host.Outcome State Fault Refusal}
    (h : Follows s v s.stack t o) :
    ∃ u, o = .next u ∧ { u with st := 0#8 } = { t with st := 0#8 } := by
  obtain ⟨v', k', rfl, -, -, hstack⟩ := h
  exact ⟨_, rfl, by rw [hstack rfl]; rfl⟩

/-- A tick lowers a timer by one unit unless it is zero (60_exceptions.md R176). -/
theorem timerTick_toNat (v : Byte) : (timerTick v).toNat = v.toNat - 1 := by
  unfold timerTick
  split
  · next h => simp [h]
  · bv_omega

/-- Settles O55: a step and an instruction from a state with another ST are followed, ST apart. -/
theorem soundTimerIsNeverRead : Obligations.SoundTimerIsNeverRead := by
  intro s v
  have hk : LiveAgree s s.stack := fun _ _ => rfl
  refine ⟨fun t h => (step_follows hk h).eq_but_sound, fun i t h => ⟨?_, ?_, ?_⟩,
    timerTick_toNat s.st, rfl⟩
  · exact (execEffect_of_exec h).st_eq
  · rintro x rfl; cases h; rfl
  · exact (exec_follows i hk h).eq_but_sound

/-- The top-of-stack port reads a live entry or fails (10_state.md R18). -/
theorem readTop_withUnread (hk : LiveAgree s k) : (s.withUnread v k).readTop = s.readTop := by
  by_cases h : s.sp.val = 0
  · rw [State.readTop, State.readTop, if_pos h, if_pos (show (s.withUnread v k).sp.val = 0 from h)]
  · rw [State.readTop, State.readTop, if_neg h, if_neg (show ¬(s.withUnread v k).sp.val = 0 from h)]
    exact congrArg Except.ok (hk.top (Nat.pos_of_ne_zero h))

/-- Settles O59: a state with other dead stack entries is followed, dead stack entries apart. -/
theorem deadStackEntriesAreUnobservable : Obligations.DeadStackEntriesAreUnobservable := by
  intro s s' heq hk
  have hs' : s' = s.withUnread s.st s'.stack := heq
  rw [hs']
  refine ⟨readTop_withUnread hk, fun t h => ?_⟩
  obtain ⟨v', k', ho, hlive, hst, -⟩ := step_follows (v := s.st) hk h
  exact ⟨_, ho, by rw [hst rfl]; rfl, hlive⟩

end Sys2Proof.Machine
end

section
/-!
The core's boundary: the host's moves (10_state.md R31 to R33), the reset contents (R30) and the
read ports (R34 to R37).
-/
namespace Sys2Proof.Machine

variable {s : State}

/-! ### When the host's moves are accepted (10_state.md R32, R33) -/

theorem State.stopped_iff : s.stopped = true ↔ s.started = false ∧ s.fault = .none := by
  simp [State.stopped]

theorem State.not_stopped_iff : ¬s.stopped = true ↔ s.started = true ∨ s.fault ≠ .none := by
  rw [State.stopped_iff, not_and_or, Bool.not_eq_false]

theorem State.hostStart_of_stopped (h : s.stopped = true) (entry : Word) :
    s.hostStart entry = .ok { s.jump (maskAddr entry) with started := true } := by
  rw [State.hostStart, if_pos h]

theorem State.hostStart_of_not_stopped (h : ¬s.stopped = true) (entry : Word) :
    s.hostStart entry = .error .notAccepted := by
  rw [State.hostStart, if_neg h]

theorem State.hostWriteMem_of_le (h : s.stopped = true) {a : Word} (ha : a.toNat ≤ 0xFFF) (b : Byte) :
    s.hostWriteMem a b = .ok (s.storeBytes a.toNat [b]) := by
  rw [State.hostWriteMem, if_pos h, memWrite_of_le ha]

theorem State.hostWriteMem_of_gt (h : s.stopped = true) {a : Word} (ha : 0xFFF < a.toNat) (b : Byte) :
    s.hostWriteMem a b = .error .outOfRange := by
  rw [State.hostWriteMem, if_pos h, memWrite_of_gt ha]

theorem State.hostWriteMem_of_not_stopped (h : ¬s.stopped = true) (a : Word) (b : Byte) :
    s.hostWriteMem a b = .error .notAccepted := by
  rw [State.hostWriteMem, if_neg h]

/-! ### The three statements about them -/

/-- Settles O22: the move is HostReset, made in the state with it taken off. -/
theorem hostResetRestoresTheResetState : Obligations.HostResetRestoresTheResetState := by
  intro s h
  rw [step_eq, h]; rfl

/-- Settles O23: accepted it jumps and starts, turned away it changes nothing. -/
theorem hostStartJumpsAndRuns : Obligations.HostStartJumpsAndRuns := by
  intro s entry h
  have hstep : step s = .next (s.taken.accept (s.taken.hostStart entry)) := by rw [step_eq, h]; rfl
  refine ⟨fun hs hf => ?_, fun hn => ?_⟩
  · have hstopped : s.taken.stopped = true := State.stopped_iff.2 ⟨hs, hf⟩
    rw [hstep, State.hostStart_of_stopped hstopped]
    exact ⟨_, rfl, maskAddr_toNat entry, rfl⟩
  · have hstopped : ¬s.taken.stopped = true := State.not_stopped_iff.2 hn
    rw [hstep, State.hostStart_of_not_stopped hstopped]
    rfl

/-- One byte stored in memory: it reads back, and every other byte as before (20_memory.md R50). -/
theorem State.byte_storeBytes_single (hm : s.memCanonical) {a : Nat} (ha : a ≤ 0xFFF) (b : Byte) :
    (s.storeBytes a [b]).byte a = b ∧ SameMemoryOutside a 1 s (s.storeBytes a [b]) := by
  have hread := State.byte_storeBytes hm a [b] (by simp only [List.length_singleton]; omega)
  refine ⟨by simp [hread], fun r hr => ?_⟩
  rw [hread]
  split
  · next hle => exact List.getD_eq_default _ _ (by simp only [List.length_singleton]; omega)
  · rfl

/-- Settles O24: accepted it is the one store, turned away it changes nothing. -/
theorem hostWriteMemStoresWhileStopped : Obligations.HostWriteMemStoresWhileStopped := by
  intro s a b hm h
  have hstep : step s = .next (s.taken.accept (s.taken.hostWriteMem a b)) := by rw [step_eq, h]; rfl
  refine ⟨fun hs hf ha => ?_, fun hn => ?_⟩
  · have hstopped : s.taken.stopped = true := State.stopped_iff.2 ⟨hs, hf⟩
    rw [hstep, State.hostWriteMem_of_le hstopped ha]
    obtain ⟨hsame, hrest⟩ := State.byte_storeBytes_single (s := s.taken) hm ha b
    exact ⟨_, rfl, hsame, hrest, rfl⟩
  · rw [hstep]
    by_cases hs : s.taken.stopped = true
    · obtain ⟨hst, hf⟩ := State.stopped_iff.1 hs
      rw [State.taken_started] at hst
      rw [State.taken_fault] at hf
      have hgt : 0xFFF < a.toNat := by simpa [hst, hf] using hn
      rw [State.hostWriteMem_of_gt hs hgt]; rfl
    · rw [State.hostWriteMem_of_not_stopped hs]; rfl

/-! ### The read ports -/

theorem State.readMem_eq (s : State) (a : Nat) :
    s.readMem a = if a ≤ 0xFFF then .ok (s.byte a) else .error .outOfRange := by
  by_cases h : a ≤ 0xFFF
  · rw [State.readMem, memRead_of_le h, if_pos h]
  · rw [State.readMem, memRead_of_gt (Nat.lt_of_not_le h), if_neg h]

theorem State.readTop_of_empty (h : s.sp.val = 0) : s.readTop = .error .stackUnderflow := by
  rw [State.readTop, if_pos h]

theorem State.readTop_of_pos (h : 0 < s.sp.val) :
    s.readTop = .ok (s.stack[s.sp.val - 1]'(by omega)) := by
  rw [State.readTop, if_neg (Nat.ne_of_gt h)]

/-- Settles O26: each port by its equation, the fault output by cases on the cause. -/
theorem readPortsShowTheState : Obligations.ReadPortsShowTheState := by
  intro s
  refine ⟨rfl, rfl, fun _ => rfl, rfl, rfl, State.readTop_of_empty, State.readTop_of_pos,
    s.readMem_eq, fun _ => rfl, rfl, ?_⟩
  rw [State.faultOutput]
  cases s.fault <;> rfl

/-- Settles O21: the fields by definition of the reset state, a memory read by its reset byte. -/
theorem resetStateHasTheSpecsValues : Obligations.ResetStateHasTheSpecsValues := by
  refine ⟨fun font => ⟨fun r => ?_, rfl, rfl, rfl, rfl, rfl, fun k hk => ?_, fun a ha => ?_,
    fun a hlo hhi => ?_, rfl, rfl, rfl⟩, rfl, rfl⟩
  · exact Vector.getElem_replicate r.isLt
  · exact if_pos hk
  · rw [State.readMem_eq, if_pos (by omega), State.byte_resetWith, dif_pos ha]
  · rw [State.readMem_eq, if_pos (by omega), State.byte_resetWith, dif_neg (by omega)]

end Sys2Proof.Machine
end

section
/-!
Memory (20_memory.md): every step keeps its canonical form (R42), the fetch reads a big-endian word
or faults (R43, R44), a data range that leaves memory faults before any access (R53), and what was
stored is what is fetched (R52).
-/
namespace Sys2Proof.Machine

variable {s t : State} {i : Instr} {x : RegIx}

/-! ### The bytes of a bulk store (42_memory_index.md R123) -/

@[simp] theorem bulkValues_length (s : State) (x : RegIx) :
    (bulkValues s x).length = bulkCount x := by
  simp only [bulkValues, bulkCount, List.length_take, Vector.length_toList]
  omega

/-- Register `r` is byte `r` of the bulk. -/
theorem bulkValues_getD {r : RegIx} (hr : r ≤ x) (d : Byte) :
    (bulkValues s x).getD r.val d = s.reg r := by
  have hlt : r.val < bulkCount x := Nat.lt_succ_of_le hr
  have hlen : r.val < (bulkValues s x).length := by rwa [bulkValues_length]
  rw [List.getD_eq_getElem _ _ hlen]
  simp [bulkValues, State.reg]

/-- A bulk that fits in memory, once stored, reads back register by register (20_memory.md R50). -/
theorem State.byte_storeBytes_bulkValues (hm : s.memCanonical)
    (hx : dataBase s + bulkCount x ≤ 4096) {r : RegIx} (hr : r ≤ x) :
    (s.storeBytes (dataBase s) (bulkValues s x)).byte (dataBase s + r.val) = s.reg r := by
  rw [State.byte_storeBytes hm _ _ (by rwa [bulkValues_length]), if_pos (Nat.le_add_right _ _),
    Nat.add_sub_cancel_left, bulkValues_getD hr]

/-! ### The canonical form and FONT (20_memory.md R42, 10_state.md R21) -/

/-- An instruction's stores passed the range check, so they lie below 4096. -/
theorem ExecEffect.memCanonical (h : ExecEffect s i t) (hs : s.memCanonical) : t.memCanonical := by
  cases h with
  | @store x hx => exact State.storeBytes_wf hs _ _ (by rwa [bulkValues_length])
  | digits hx => exact State.storeBytes_wf hs _ _ hx
  | _ => exact hs

/-- A step leaves the parameter FONT as it is (00_scope.md R1, log entry 2). -/
theorem step_font (h : step s = .next t) : t.font = s.font := by
  obtain rfl | rfl | rfl | ⟨-, _, rfl⟩ | ⟨-, _, _, -, rfl⟩ | ⟨-, _, -, rfl⟩ | ⟨-, -, _, he⟩ :=
    step_cases h
  · rfl
  · rfl
  · rfl
  · rfl
  · rfl
  · rfl
  · obtain ⟨-, hfont, -⟩ := (execEffect_of_exec he).fixed
    exact hfont

/-- Only an accepted HostWriteMem and an instruction store bytes, each below 4096; HostReset loads
the reset contents of the same FONT. -/
theorem step_memCanonical (h : step s = .next t) (hs : s.memCanonical) : t.memCanonical := by
  have hs' : s.taken.memCanonical := hs
  obtain rfl | rfl | rfl | ⟨-, _, rfl⟩ | ⟨-, a, b, ha, rfl⟩ | ⟨-, _, -, rfl⟩ | ⟨-, -, _, he⟩ :=
    step_cases h
  · exact hs'
  · exact hs'
  · exact Memory.reset_wf
  · exact hs'
  · exact State.storeBytes_wf hs' a [b] (Nat.succ_le_succ ha)
  · exact hs'
  · exact (execEffect_of_exec he).memCanonical hs'

/-- Settles O17: FONT is fixed, and every store of a step lies in memory. -/
theorem stepKeepsMemoryCanonical : Obligations.StepKeepsMemoryCanonical :=
  fun _ _ h => ⟨step_font h, step_memCanonical h⟩

/-! ### A data range and its fault (20_memory.md R53) -/

/-- What FINFO holds of the lowest address from `w` on that is outside memory. -/
theorem ofNat_lowestOutside (w : Word) :
    BitVec.ofNat 16 (max w.toNat 0x1000) = if w.toNat > 0xFFF then w else 0x1000#16 := by
  split
  · next h => rw [Nat.max_eq_left h, BitVec.ofNat_toNat, BitVec.setWidth_eq]
  · next h => rw [Nat.max_eq_right (by omega)]

/-- An instruction whose range leaves memory ends in the AddressFault, whatever it would have done. -/
theorem settle_checkRange_of_gt {count : Nat} (h : 0xFFF < dataBase s + (count - 1))
    (f : Unit → State) :
    settle s ((checkRange (dataBase s) count).map f) =
      .next { s with fault := .addressFault, finfo := lowestOffending s } := by
  rw [checkRange_of_gt h, lowestOffending, ← ofNat_lowestOutside]
  rfl

/-- An instruction whose range is in memory does what it does after the check. -/
theorem settle_checkRange_of_le {count : Nat} (h : dataBase s + (count - 1) ≤ 0xFFF)
    (f : Unit → State) : settle s ((checkRange (dataBase s) count).map f) = .next (f ()) := by
  rw [checkRange_of_le h]
  rfl

/-- Settles O50: each of the three instructions ends behind its range check. -/
theorem accessAboveMemoryWritesNothing : Obligations.AccessAboveMemoryWritesNothing :=
  fun _ _ => ⟨fun h => ⟨settle_checkRange_of_gt h _, settle_checkRange_of_gt h _⟩,
    fun h => settle_checkRange_of_gt h _⟩

/-! ### The fetch (20_memory.md R43, R44, R52) -/

theorem wordOfBytes_toNat (hi lo : Byte) :
    (wordOfBytes hi lo).toNat = 256 * hi.toNat + lo.toNat := by
  rw [wordOfBytes, BitVec.toNat_append, ← Nat.shiftLeft_add_eq_or_of_lt lo.isLt, Nat.shiftLeft_eq,
    Nat.mul_comm]

theorem fetch_of_le (h : s.pc.toNat ≤ 0xFFE) :
    fetch s = .ok (wordOfBytes (s.byte s.pc.toNat) (s.byte (s.pc.toNat + 1))) := by
  rw [fetch_eq, if_pos h]

theorem fetch_of_gt (h : 0xFFE < s.pc.toNat) :
    fetch s = .error ⟨.addressFault, max s.pc.toNat 0x1000⟩ := by
  rw [fetch_eq, if_neg (Nat.not_le_of_gt h)]

theorem fetchExecute_of_fetch_error {e : Raised} (h : fetch s = .error e) :
    fetchExecute s = .next (s.raise e) := by
  rw [fetchExecute, h]

theorem step_of_dispatch (hr : s.running = true) (hm : s.nextMove = .dispatch) :
    step s = fetchExecute s.taken := by
  rw [step_eq, hm]
  exact dispatcherStep_of_running hr

/-- Settles O52: both bytes of the word read back what the store put there. -/
theorem storedBytesAreFetched : Obligations.StoredBytesAreFetched := by
  intro x r r' s hm hx hr' hle
  refine ⟨_, settle_checkRange_of_le (count := bulkCount x) hx _, fun u hmem hfont hpc => ?_⟩
  have hbyte (q : RegIx) (hq : q ≤ x) : u.byte (dataBase s + q.val) = s.reg q := by
    rw [State.byte, hmem, hfont]
    exact State.byte_storeBytes_bulkValues hm (Nat.succ_le_succ hx) hq
  have hlt : r'.val ≤ x.val := hle
  rw [fetch_of_le (by rw [hpc, dataBase]; omega), hpc, hbyte r (by rw [Fin.le_def]; omega),
    Nat.add_assoc, ← hr', hbyte r' hle]

/-- Settles O9: the byte at pc is the most significant. -/
theorem fetchIsBigEndian : Obligations.FetchIsBigEndian :=
  fun _ h => ⟨_, fetch_of_le h, wordOfBytes_toNat _ _⟩

/-- Settles O10: the fetch's fault is taken, with the lowest address outside memory. -/
theorem fetchAboveMemoryRaisesAddressFault : Obligations.FetchAboveMemoryRaisesAddressFault := by
  intro s hr hm hpc
  have hinfo : BitVec.ofNat 16 (max s.pc.toNat 0x1000) =
      if s.pc = 0xFFF#16 then 0x1000#16 else s.pc := by
    rw [ofNat_lowestOutside]
    by_cases h : s.pc = 0xFFF#16
    · rw [if_pos h, h]; rfl
    · rw [if_neg h, if_pos (by bv_omega)]
  rw [step_of_dispatch hr hm, fetchExecute_of_fetch_error (fetch_of_gt (s := s.taken) hpc), ← hinfo]
  rfl

end Sys2Proof.Machine
end

section
/-!
The encoding: the fields of a word put together again, and the two round trips between words and
instructions (30_encoding.md R61, R62, R65).
-/
namespace Sys2Proof

variable {w : Word} {i : Instr}

/-! ### The fields of a word make the word -/

theorem lowByte_toNat (w : Word) : (lowByte w).toNat = w.toNat % 256 := by
  rw [lowByte, BitVec.extractLsb'_toNat, Nat.shiftRight_zero]

theorem fieldNnn_toNat (w : Word) : (fieldNnn w).toNat = w.toNat % 4096 := by
  rw [fieldNnn, BitVec.toNat_setWidth, BitVec.extractLsb'_toNat, Nat.shiftRight_zero]
  omega

theorem ofNibbles_nibbles (w : Word) :
    ofNibbles (nibble w 3) (nibble w 2) (nibble w 1) (nibble w 0) = w := by
  have := w.isLt
  apply BitVec.eq_of_toNat_eq
  simp only [ofNibbles_toNat, nibble_eq]
  omega

theorem formatXK_fields (w : Word) : formatXK (nibble w 3) (nibble w 2) (lowByte w) = w := by
  have := w.isLt
  apply BitVec.eq_of_toNat_eq
  simp only [formatXK_toNat, nibble_eq, lowByte_toNat]
  omega

theorem formatA_fields (w : Word) : formatA (nibble w 3) (fieldNnn w) = w := by
  have := w.isLt
  apply BitVec.eq_of_toNat_eq
  simp only [formatA_toNat, nibble_eq, fieldNnn_toNat]
  omega

theorem formatXK_of_opcode {op : Fin 16} (h : (nibble w 3).val = op.val) :
    formatXK op (nibble w 2) (lowByte w) = w := by
  rw [← Fin.ext h, formatXK_fields]

theorem formatA_of_opcode {op : Fin 16} (h : (nibble w 3).val = op.val) :
    formatA op (fieldNnn w) = w := by
  rw [← Fin.ext h, formatA_fields]

theorem formatXF_of_opcode {op : Fin 16} {kk : Byte} (h : (nibble w 3).val = op.val)
    (hk : (lowByte w).toNat = kk.toNat) : formatXK op (nibble w 2) kk = w := by
  rw [← BitVec.eq_of_toNat_eq hk, formatXK_of_opcode h]

theorem ofNibbles_of_opcode {op fn : Fin 16} (h : (nibble w 3).val = op.val)
    (hf : (nibble w 0).val = fn.val) : ofNibbles op (nibble w 2) (nibble w 1) fn = w := by
  rw [← Fin.ext h, ← Fin.ext hf, ofNibbles_nibbles]

/-! ### Decoding what was encoded -/

theorem decodeWord_encode (hi : i.wellFormed = true) : decodeWord (encode i) = .ok i := by
  cases i with
  | cls | ret => decide
  | jp a | call a | ldI a | jpV0 a =>
    have ha : a.toNat < 0x1000 := by simpa [Instr.wellFormed] using hi
    simp [encode, decodeWord, fields_formatA _ a ha]
  | seByte x kk | sneByte x kk | ldByte x kk | addByte x kk | rnd x kk =>
    simp [encode, decodeWord]
  | seReg x y | sneReg x y => simp [encode, decodeWord]
  | ldReg x y | or x y | and x y | xor x y | addReg x y | sub x y | shr x y | subn x y | shl x y =>
    simp [encode, decodeWord, decodeAlu]
  | ldVxDt x | ldDtVx x | ldStVx x | addI x | ldF x | ldB x | storeRegs x | loadRegs x =>
    simp [encode, decodeWord, decodeMisc]

/-- Settles O1: the word by cases on the instruction, the bytes by the word they make. -/
theorem decodeOfEncodeIsInstruction : Obligations.DecodeOfEncodeIsInstruction := by
  intro i hi
  refine ⟨decodeWord_encode hi, fun rest => ?_⟩
  show decode (highByte (encode i) :: lowByte (encode i) :: rest) = _
  rw [decode_bytes, decodeWord_encode hi]
  rfl

/-! ### Encoding what was decoded -/

theorem fieldNnn_lt (w : Word) : (fieldNnn w).toNat < 0x1000 := by
  rw [fieldNnn_toNat]; exact Nat.mod_lt _ (by decide)

theorem encode_of_decodeZero (h : decodeZero w = .ok i) : encode i = w ∧ i.wellFormed = true := by
  unfold decodeZero at h
  split at h
  · next hw => cases h; exact ⟨hw.symm, rfl⟩
  · split at h
    · next hw => cases h; exact ⟨hw.symm, rfl⟩
    · cases h

theorem encode_of_decodeAlu (hop : (nibble w 3).val = 0x8)
    (h : decodeAlu w (nibble w 2) (nibble w 1) = .ok i) : encode i = w ∧ i.wellFormed = true := by
  unfold decodeAlu at h
  split at h
  case h_10 => cases h
  all_goals
    next hfn => cases h; exact ⟨ofNibbles_of_opcode hop hfn, rfl⟩

theorem encode_of_decodeMisc (hop : (nibble w 3).val = 0xF)
    (h : decodeMisc w (nibble w 2) = .ok i) : encode i = w ∧ i.wellFormed = true := by
  unfold decodeMisc at h
  split at h
  case h_9 | h_10 => cases h
  all_goals
    next hkk => cases h; exact ⟨formatXF_of_opcode hop hkk, rfl⟩

theorem decodeKey_eq_error (w : Word) : ∃ e, decodeKey w = .error e := by
  unfold decodeKey
  split <;> exact ⟨_, rfl⟩

theorem encode_of_decodeWord (h : decodeWord w = .ok i) : encode i = w ∧ i.wellFormed = true := by
  unfold decodeWord at h
  split at h
  case h_1 => exact encode_of_decodeZero h
  case h_2 hop | h_3 hop | h_11 hop | h_12 hop =>
    cases h
    exact ⟨formatA_of_opcode hop, decide_eq_true (fieldNnn_lt w)⟩
  case h_4 hop | h_5 hop | h_7 hop | h_8 hop | h_13 hop =>
    cases h
    exact ⟨formatXK_of_opcode hop, rfl⟩
  case h_6 hop | h_10 hop =>
    split at h
    · next hfn => cases h; exact ⟨ofNibbles_of_opcode hop (congrArg Fin.val hfn), rfl⟩
    · cases h
  case h_9 hop => exact encode_of_decodeAlu hop h
  case h_14 => cases h
  case h_15 =>
    obtain ⟨e, he⟩ := decodeKey_eq_error w
    rw [he] at h; cases h
  case h_16 =>
    have hop : (nibble w 3).val = 0xF := by
      have := (nibble w 3).isLt
      simp only [imp_false] at *
      omega
    exact encode_of_decodeMisc hop h

/-- Settles O2: each opcode's words are put together again from the fields the decoder read. -/
theorem encodeOfDecodeIsWord : Obligations.EncodeOfDecodeIsWord :=
  fun _ _ h => encode_of_decodeWord h

end Sys2Proof
end

section
/-!
The opcode map (30_encoding.md R65) and the words outside it (R70 to R72).
-/
namespace Sys2Proof

open Sys2Proof.Laws

variable {w : Word} {i : Instr} {r : OpcodeRow}

/-! ### What a word is that a row's mask maps to the row's pattern -/

theorem opcode_of_mask {op : Fin 16} (h : w &&& 0xF000#16 = ofNibbles op 0 0 0) :
    (nibble w 3).val = op.val := by
  rw [← formatA_fields w, formatA_mask] at h
  simpa using congrArg (fun u => (nibble u 3).val) h

theorem formatXF_of_mask {op : Fin 16} {kk : Byte} (h : w &&& 0xF0FF#16 = formatXK op 0 kk) :
    formatXK op (nibble w 2) kk = w := by
  rw [← formatXK_fields w, formatXF_mask] at h
  have hop := congrArg (nibble · 3) h
  have hkk := congrArg lowByte h
  simp only [fields_formatXK] at hop hkk
  exact formatXF_of_opcode (congrArg Fin.val hop) (congrArg BitVec.toNat hkk)

theorem ofNibbles_of_mask {op fn : Fin 16} (h : w &&& 0xF00F#16 = ofNibbles op 0 0 fn) :
    ofNibbles op (nibble w 2) (nibble w 1) fn = w := by
  rw [← ofNibbles_nibbles w, ofNibbles_mask] at h
  have hop := congrArg (nibble · 3) h
  have hfn := congrArg (nibble · 0) h
  simp only [nibble_ofNibbles] at hop hfn
  exact ofNibbles_of_opcode (congrArg Fin.val hop) (congrArg Fin.val hfn)

theorem eq_of_mask {p : Word} (h : w &&& 0xFFFF#16 = p) : p = w :=
  h.symm.trans BitVec.and_allOnes

/-! ### The instruction of a row whose operands are a word's fields -/

/-- The instruction of the row of `i` whose operands are the fields of the word `w`. -/
def Instr.withFields (w : Word) : Instr → Instr
  | .cls => .cls
  | .ret => .ret
  | .jp _ => .jp (fieldNnn w)
  | .call _ => .call (fieldNnn w)
  | .seByte _ _ => .seByte (nibble w 2) (lowByte w)
  | .sneByte _ _ => .sneByte (nibble w 2) (lowByte w)
  | .seReg _ _ => .seReg (nibble w 2) (nibble w 1)
  | .ldByte _ _ => .ldByte (nibble w 2) (lowByte w)
  | .addByte _ _ => .addByte (nibble w 2) (lowByte w)
  | .ldReg _ _ => .ldReg (nibble w 2) (nibble w 1)
  | .or _ _ => .or (nibble w 2) (nibble w 1)
  | .and _ _ => .and (nibble w 2) (nibble w 1)
  | .xor _ _ => .xor (nibble w 2) (nibble w 1)
  | .addReg _ _ => .addReg (nibble w 2) (nibble w 1)
  | .sub _ _ => .sub (nibble w 2) (nibble w 1)
  | .shr _ _ => .shr (nibble w 2) (nibble w 1)
  | .subn _ _ => .subn (nibble w 2) (nibble w 1)
  | .shl _ _ => .shl (nibble w 2) (nibble w 1)
  | .sneReg _ _ => .sneReg (nibble w 2) (nibble w 1)
  | .ldI _ => .ldI (fieldNnn w)
  | .jpV0 _ => .jpV0 (fieldNnn w)
  | .rnd _ _ => .rnd (nibble w 2) (lowByte w)
  | .ldVxDt _ => .ldVxDt (nibble w 2)
  | .ldDtVx _ => .ldDtVx (nibble w 2)
  | .ldStVx _ => .ldStVx (nibble w 2)
  | .addI _ => .addI (nibble w 2)
  | .ldF _ => .ldF (nibble w 2)
  | .ldB _ => .ldB (nibble w 2)
  | .storeRegs _ => .storeRegs (nibble w 2)
  | .loadRegs _ => .loadRegs (nibble w 2)

theorem rowOf_withFields (w : Word) (i : Instr) : rowOf (i.withFields w) = rowOf i := by
  cases i <;> rfl

theorem withFields_wellFormed (w : Word) (i : Instr) : (i.withFields w).wellFormed = true := by
  cases i with
  | jp | call | ldI | jpV0 => exact decide_eq_true (fieldNnn_lt w)
  | _ => rfl

theorem encode_withFields (h : (rowOf i).accepts w = true) : encode (i.withFields w) = w := by
  have hw : w &&& (rowOf i).mask = (rowOf i).pattern := eq_of_beq h
  cases i with
  | cls | ret => exact eq_of_mask hw
  | jp | call | ldI | jpV0 => exact formatA_of_opcode (opcode_of_mask hw)
  | seByte | sneByte | ldByte | addByte | rnd => exact formatXK_of_opcode (opcode_of_mask hw)
  | ldVxDt | ldDtVx | ldStVx | addI | ldF | ldB | storeRegs | loadRegs =>
    exact formatXF_of_mask hw
  | _ => exact ofNibbles_of_mask hw

/-- A word that matches the row of an instruction decodes to an instruction of that row. -/
theorem decodeWord_of_accepts (h : (rowOf i).accepts w = true) :
    decodeWord w = .ok (i.withFields w) := by
  conv_lhs => rw [← encode_withFields h]
  exact decodeWord_encode (withFields_wellFormed w i)

/-! ### The rows of the map are the rows of the instructions -/

theorem rowOf_accepts_encode (i : Instr) : (rowOf i).accepts (encode i) = true := by
  cases i
  exacts [TableRow.cls, TableRow.ret, TableRow.jp _, TableRow.call _, TableRow.seByte _ _,
    TableRow.sneByte _ _, TableRow.seReg _ _, TableRow.ldByte _ _, TableRow.addByte _ _,
    TableRow.ldReg _ _, TableRow.or _ _, TableRow.and _ _, TableRow.xor _ _, TableRow.addReg _ _,
    TableRow.sub _ _, TableRow.shr _ _, TableRow.subn _ _, TableRow.shl _ _, TableRow.sneReg _ _,
    TableRow.ldI _, TableRow.jpV0 _, TableRow.rnd _ _, TableRow.ldVxDt _, TableRow.ldDtVx _,
    TableRow.ldStVx _, TableRow.addI _, TableRow.ldF _, TableRow.ldB _, TableRow.storeRegs _,
    TableRow.loadRegs _]

theorem rowOf_mem_opcodeRows (i : Instr) : rowOf i ∈ opcodeRows := by
  cases i <;> simp [opcodeRows, rowOf]

theorem exists_rowOf_of_mem (h : r ∈ opcodeRows) : ∃ i, rowOf i = r := by
  revert r
  simp [opcodeRows]

/-- Settles O3: a decoded word is the encoder's, which lies in its row, and a word in the row of an
instruction is the word of one with the operands read off its fields. -/
theorem wordSelectsTheRowItMatches : Obligations.WordSelectsTheRowItMatches := by
  refine ⟨rfl, fun w i h => ⟨rowOf_mem_opcodeRows i, ?_⟩, fun w r hr h => ?_⟩
  · obtain ⟨rfl, -⟩ := encode_of_decodeWord h
    exact rowOf_accepts_encode i
  · obtain ⟨i, rfl⟩ := exists_rowOf_of_mem hr
    exact ⟨_, decodeWord_of_accepts h, rowOf_withFields w i⟩

/-- Settles O4: the decoder is a function, so the rows of what a word decodes to are one. -/
theorem opcodeRowsAreDisjoint : Obligations.OpcodeRowsAreDisjoint := by
  intro w r r' hr hr' h h'
  obtain ⟨-, -, hdecode⟩ := wordSelectsTheRowItMatches
  obtain ⟨i, hi, rfl⟩ := hdecode w r hr h
  obtain ⟨j, hj, rfl⟩ := hdecode w r' hr' h'
  rw [hi] at hj
  cases hj; rfl

/-! ### The words outside the map -/

theorem decodeZero_error_iff :
    (∃ e, decodeZero w = .error e) ↔ w ≠ 0x00E0#16 ∧ w ≠ 0x00EE#16 := by
  unfold decodeZero
  split_ifs with hcls hret
  · simp [hcls]
  · simp [hret]
  · simp [hcls, hret]

theorem decodeAlu_error_iff (x y : RegIx) : (∃ e, decodeAlu w x y = .error e) ↔
    (nibble w 0).val ∈ [0x8, 0x9, 0xA, 0xB, 0xC, 0xD, 0xF] := by
  simp only [decodeAlu]
  generalize nibble w 0 = fn
  fin_cases fn <;> simp

theorem decodeMisc_error_iff (x : RegIx) : (∃ e, decodeMisc w x = .error e) ↔
    (lowByte w).toNat ∉ [0x07, 0x15, 0x18, 0x1E, 0x29, 0x33, 0x55, 0x65] := by
  unfold decodeMisc
  split
  case h_10 => simp_all
  all_goals next hkk => simp [hkk]

theorem toNat_div_eq_opcode (w : Word) : w.toNat / 0x1000 = (nibble w 3).val := by
  rw [nibble_eq]
  omega

theorem toNat_lt_iff_opcode (w : Word) : w.toNat < 0x1000 ↔ (nibble w 3).val = 0 := by
  rw [← toNat_div_eq_opcode, Nat.div_eq_zero_iff]
  omega

theorem toNat_mod_eq_function (w : Word) : w.toNat % 16 = (nibble w 0).val := by
  rw [nibble_eq]
  omega

theorem ite_error_iff {r : Reject} {p : Prop} [Decidable p] :
    (∃ e, (if p then Except.ok i else .error r) = .error e) ↔ ¬p := by
  split_ifs with hp <;> simp [hp]

/-- Settles O5: for each of the 16 opcodes, the words that its part of the decoder refuses. -/
theorem illegalWordsAreExactlyTheListed : Obligations.IllegalWordsAreExactlyTheListed := by
  intro w
  simp only [toNat_lt_iff_opcode, toNat_div_eq_opcode, toNat_mod_eq_function, ← lowByte_toNat]
  generalize hop : nibble w 3 = op
  fin_cases op <;>
    simp [decodeWord, hop, decodeZero_error_iff, decodeAlu_error_iff, decodeKey_eq_error,
      decodeMisc_error_iff, ite_error_iff]

end Sys2Proof
end

section
/-!
The dispatcher's step (30_encoding.md R66): it runs what the fetched word decodes to, faults on a
word that decodes to nothing (R71), idles where it is not enabled, and runs a placed word.
-/
namespace Sys2Proof.Machine

variable {s : State} {i : Instr} {w : Word}

/-! ### What a running dispatcher does with the word it fetched -/

theorem fetchExecute_of_ok (hf : fetch s = .ok w) (hd : decodeWord w = .ok i) :
    fetchExecute s = exec i s := by
  simp only [fetchExecute, hf, hd]

theorem fetchExecute_of_illegal {e : Reject} (hf : fetch s = .ok w)
    (hd : decodeWord w = .error e) :
    fetchExecute s = .next (s.raise ⟨.illegalInstruction, w.toNat⟩) := by
  simp only [fetchExecute, hf, hd]

theorem step_of_fetch_ok (hr : s.running = true) (hm : s.nextMove = .dispatch)
    (hf : fetch s = .ok w) (hd : decodeWord w = .ok i) : step s = exec i s.taken := by
  rw [step_of_dispatch hr hm, fetchExecute_of_ok (s := s.taken) hf hd]

/-- What a step answers when the dispatcher's move is next, with no move listed and with that move
first in the agenda (log entry 3). -/
theorem step_dispatch_clauses {f : State → Host.Outcome State Fault Refusal}
    (h : s.nextMove = .dispatch → step s = f s.taken) :
    (s.nextMove = .dispatch → step s = f s.taken) ∧
      (s.agenda = [] → s.cycle = [] → step s = f s) ∧
      ∀ rest, s.agenda = .dispatch :: rest → step s = f { s with agenda := rest } := by
  refine ⟨h, fun ha hc => ?_, fun rest ha => ?_⟩
  · rw [h (State.nextMove_unlisted ha hc), State.taken_unlisted ha hc]
  · rw [h (State.nextMove_pending ha), State.taken_pending ha]

theorem decodeWord_of_decode {hi lo : Byte} (h : decode [hi, lo] = .ok (i, [])) :
    decodeWord (wordOfBytes hi lo) = .ok i := by
  simp only [decode] at h
  cases hd : decodeWord (wordOfBytes hi lo) with
  | error e => rw [hd] at h; cases h
  | ok j => rw [hd] at h; cases h; rfl

/-- Settles O7: the fetch gives the word of the two bytes, and the step runs what it decodes to. -/
theorem stepRunsTheDecodedInstruction : Obligations.StepRunsTheDecodedInstruction :=
  fun _ _ hr hpc hd => step_dispatch_clauses fun hm =>
    step_of_fetch_ok hr hm (fetch_of_le hpc) (decodeWord_of_decode hd)

/-- Settles O11: the fetch gives the word, and the decoder's refusal of it is the fault taken. -/
theorem illegalWordRaisesIllegalInstruction : Obligations.IllegalWordRaisesIllegalInstruction := by
  intro s e hr hm hpc hd
  rw [step_of_dispatch hr hm, fetchExecute_of_illegal (s := s.taken) (fetch_of_le hpc) hd,
    State.raise, BitVec.ofNat_toNat, BitVec.setWidth_eq]
  rfl

theorem State.running_iff : s.running = true ↔ s.started = true ∧ s.fault = .none := by
  simp [State.running]

theorem State.not_running_iff : s.running = false ↔ s.started = false ∨ s.fault ≠ .none := by
  rw [← Bool.not_eq_true, State.running_iff, not_and_or, Bool.not_eq_true]

/-- Settles O12: the dispatcher's move is made, and a dispatcher that is not enabled idles. -/
theorem disabledDispatcherChangesNothing : Obligations.DisabledDispatcherChangesNothing :=
  fun s hs => step_dispatch_clauses (f := .next) fun hm => by
    rw [step_eq, hm]
    exact dispatcherStep_of_not_running (s := s.taken) (State.not_running_iff.2 hs)

/-! ### A placed word (log entry 13) -/

theorem State.withFetchWord_toNat (s : State) (w : Word) :
    s.withFetchWord 16 w.toNat = s.placeWord w := by
  rw [State.withFetchWord, Nat.mod_eq_of_lt w.isLt, BitVec.ofNat_toNat, BitVec.setWidth_eq]

theorem State.placeWord_running (s : State) (w : Word) : (s.placeWord w).running = true := rfl

theorem fetchableAddr_toNat_le (pc : Word) : (fetchableAddr pc).toNat ≤ 0xFFE := by
  unfold fetchableAddr
  split
  · assumption
  · decide

theorem State.placeWord_nextMove (s : State) (w : Word) : (s.placeWord w).nextMove = .dispatch := by
  show (s.dispatchFirst ++ s.cycle).headD .dispatch = .dispatch
  unfold State.dispatchFirst
  split
  · next h => exact h
  · rfl

theorem fetch_placeWord (hm : s.memCanonical) (w : Word) : fetch (s.placeWord w) = .ok w := by
  have hpc := fetchableAddr_toNat_le s.pc
  have hbyte (a : Nat) : (s.placeWord w).byte a = _ :=
    State.byte_storeBytes hm (fetchableAddr s.pc).toNat [highByte w, lowByte w]
      (by simp only [List.length_cons, List.length_nil]; omega) a
  rw [fetch_of_le (s := s.placeWord w) hpc, hbyte, hbyte]
  simp [State.placeWord]

/-- Settles O8: a placed word is fetched by a running dispatcher, whose move is next. -/
theorem placedWordRunsNext : Obligations.PlacedWordRunsNext := by
  intro s i hm hi
  rw [State.withFetchWord_toNat]
  have hnext := s.placeWord_nextMove (encode i)
  exact ⟨hnext, step_of_fetch_ok (s.placeWord_running _) hnext (fetch_placeWord hm _)
    (decodeWord_encode hi)⟩

end Sys2Proof.Machine
end

section
/-!
Register arithmetic (40_register_arithmetic.md): the two ways an ALU instruction ends, with or
without a flag, each with its frame, and what its results and flags are as numbers.
-/
namespace Sys2Proof.Machine

/-! ### The flags as conditions on the operands -/

theorem carryFlag_eq (a b : Byte) :
    carryFlag a b = if a.toNat + b.toNat > 255 then 0x01#8 else 0x00#8 := by
  simp only [carryFlag, flagByte, decide_eq_true_eq]

theorem noBorrowFlag_eq (a b : Byte) :
    noBorrowFlag a b = if b.toNat > a.toNat then 0x00#8 else 0x01#8 := by
  by_cases h : b > a
  · simp [noBorrowFlag, flagByte, h, BitVec.lt_def.1 h]
  · simp [noBorrowFlag, flagByte, h, mt BitVec.lt_def.2 h]

/-- Bit 7 of a byte says whether the byte is at least 128. -/
theorem shiftLeftFlag_eq (b : Byte) :
    shiftLeftFlag b = if b.toNat ≥ 128 then 0x01#8 else 0x00#8 := by
  have hbit : b.getLsbD 7 = decide (128 ≤ b.toNat) := BitVec.msb_eq_decide b
  simp only [shiftLeftFlag, flagByte, hbit, decide_eq_true_eq, ge_iff_le]

/-- Bit 0 of a byte says whether the byte is odd. -/
theorem shiftRightFlag_eq (b : Byte) :
    shiftRightFlag b = if b.toNat % 2 = 1 then 0x01#8 else 0x00#8 := by
  have hbit : b.getLsbD 0 = decide (b.toNat % 2 = 1) := Nat.testBit_zero b.toNat
  simp only [shiftRightFlag, flagByte, hbit, decide_eq_true_eq]

/-! ### The results as numbers -/

/-- The difference as R82 and R83 write it, the modulus added to the minuend. -/
theorem byte_toNat_sub (a b : Byte) : (a - b).toNat = (a.toNat + 256 - b.toNat) % 256 := by
  have hb := b.isLt
  rw [BitVec.toNat_sub]
  congr 1
  omega

theorem byte_toNat_shiftLeft_one (b : Byte) : (b <<< 1).toNat = 2 * b.toNat % 256 := by
  rw [BitVec.toNat_shiftLeft, Nat.shiftLeft_eq, Nat.mul_comm]

theorem byte_toNat_ushiftRight_one (b : Byte) : (b >>> 1).toNat = b.toNat / 2 := by
  rw [BitVec.toNat_ushiftRight, Nat.shiftRight_eq_div_pow]

/-! ### An instruction that writes one register and no flag -/

/-- Beside its destination, such an instruction changes the pc alone. -/
theorem State.advance_setReg_frame (s : State) (x : RegIx) (v : Byte) :
    (s.setReg x v).advance.pc = s.pc + 2#16 ∧ SameRegsExcept [x] s (s.setReg x v).advance ∧
      OnlyRegsPc s (s.setReg x v).advance ∧ SameMemory s (s.setReg x v).advance :=
  ⟨rfl, fun r hr => State.reg_setReg_ne s x r v (List.ne_of_not_mem_cons hr), rfl, fun _ => rfl⟩

theorem State.reg_advance_setReg_same (s : State) (x : RegIx) (v : Byte) :
    (s.setReg x v).advance.reg x = v := State.reg_setReg_same s x v

/-! ### An instruction that writes a result and its flag -/

/-- Beside its destination and the flag register, such an instruction changes the pc alone. -/
theorem State.advance_setResultFlag_frame (s : State) (x : RegIx) (v f : Byte) :
    (s.setResultFlag x v f).advance.pc = s.pc + 2#16 ∧
      SameRegsExcept [x, 0xF] s (s.setResultFlag x v f).advance ∧
      OnlyRegsPc s (s.setResultFlag x v f).advance ∧
      SameMemory s (s.setResultFlag x v f).advance := by
  refine ⟨rfl, fun r hr => ?_, rfl, fun _ => rfl⟩
  obtain ⟨hx, hf⟩ : r ≠ x ∧ r ≠ flagReg := by simpa [flagReg] using hr
  rw [State.reg_advance, State.reg_setResultFlag, if_neg hf, if_neg hx]

/-- What an instruction that ends with a result of value `n` and the flag `g` does, with X = 0xF
the flag being what the register ends with (40_register_arithmetic.md R80). -/
theorem exists_next_of_setResultFlag {o : Host.Outcome State Fault Refusal} {s : State} {x : RegIx}
    {v f g : Byte} {n : Nat} (ho : o = .next (s.setResultFlag x v f).advance)
    (hv : v.toNat = n) (hf : f = g) :
    ∃ t, o = .next t ∧ (x ≠ 0xF → (t.reg x).toNat = n) ∧ t.reg 0xF = g ∧
      t.pc = s.pc + 2#16 ∧ SameRegsExcept [x, 0xF] s t ∧ OnlyRegsPc s t ∧ SameMemory s t := by
  refine ⟨_, ho, fun hx => ?_, ?_, s.advance_setResultFlag_frame x v f⟩
  · have hne : x ≠ flagReg := hx
    rw [State.reg_advance, State.reg_setResultFlag, if_neg hne, if_pos rfl, hv]
  · exact (State.reg_setReg_same (s.setReg x v) flagReg f).trans hf

/-! ### The flag writers (R81 to R83, R87, R88) -/

/-- Settles O27: the sum of bytes wraps, and the flag is the carry. -/
theorem addRegistersSumAndCarry : Obligations.AddRegistersSumAndCarry := fun x y s =>
  exists_next_of_setResultFlag rfl (BitVec.toNat_add (s.reg x) (s.reg y)) (carryFlag_eq _ _)

/-- Settles O28: the minuend is x[X]. -/
theorem subtractDifferenceAndNoBorrow : Obligations.SubtractDifferenceAndNoBorrow := fun x y s =>
  exists_next_of_setResultFlag rfl (byte_toNat_sub (s.reg x) (s.reg y)) (noBorrowFlag_eq _ _)

/-- Settles O29: the minuend is x[Y]. -/
theorem reverseSubtractDifferenceAndNoBorrow :
    Obligations.ReverseSubtractDifferenceAndNoBorrow := fun x y s =>
  exists_next_of_setResultFlag rfl (byte_toNat_sub (s.reg y) (s.reg x)) (noBorrowFlag_eq _ _)

/-- Settles O30: a left shift by one doubles, and bit 7 is the byte's being at least 128. -/
theorem shiftLeftDoublesAndCatchesBit7 : Obligations.ShiftLeftDoublesAndCatchesBit7 :=
  fun _ y s => exists_next_of_setResultFlag rfl (byte_toNat_shiftLeft_one (s.reg y))
    (shiftLeftFlag_eq _)

/-- Settles O31: a right shift by one halves, and bit 0 is the byte's being odd. -/
theorem shiftRightHalvesAndCatchesBit0 : Obligations.ShiftRightHalvesAndCatchesBit0 :=
  fun _ y s => exists_next_of_setResultFlag rfl (byte_toNat_ushiftRight_one (s.reg y))
    (shiftRightFlag_eq _)

/-! ### The instructions without a flag (R84 to R86, R89 to R91) -/

/-- Settles O32: each writes the word operation's result, whose bits are the operation's on bits. -/
theorem logicIsBitwiseWithoutFlag : Obligations.LogicIsBitwiseWithoutFlag := by
  intro x y s
  refine ⟨⟨_, rfl, fun k => ?_, s.advance_setReg_frame x _⟩,
    ⟨_, rfl, fun k => ?_, s.advance_setReg_frame x _⟩,
    ⟨_, rfl, fun k => ?_, s.advance_setReg_frame x _⟩⟩
  · rw [State.reg_advance_setReg_same, BitVec.getLsbD_and]
  · rw [State.reg_advance_setReg_same, BitVec.getLsbD_or]
  · rw [State.reg_advance_setReg_same, BitVec.getLsbD_xor]

/-- Settles O33: the sum of bytes wraps. -/
theorem addByteWrapsWithoutFlag : Obligations.AddByteWrapsWithoutFlag := fun x _ s =>
  ⟨_, rfl, by rw [State.reg_advance_setReg_same, BitVec.toNat_add], s.advance_setReg_frame x _⟩

/-- Settles O34: the value written is x[Y] before. -/
theorem registerCopyIsPlain : Obligations.RegisterCopyIsPlain := fun x _ s =>
  ⟨_, rfl, s.reg_advance_setReg_same x _, s.advance_setReg_frame x _⟩

/-- Settles O35: the value written is the immediate. -/
theorem loadImmediateIsPlain : Obligations.LoadImmediateIsPlain := fun x kk s =>
  ⟨_, rfl, s.reg_advance_setReg_same x kk, s.advance_setReg_frame x kk⟩

end Sys2Proof.Machine
end

section
/-!
Control flow (41_control_flow.md): the jumps and skips, which write the pc alone, and CALL and RET,
each by one equation for a stack with room and one for the fault.
-/
namespace Sys2Proof.Machine

variable {s : State}

/-! ### Jumps (R100, R101) -/

theorem State.jump_frame (s : State) (p : Word) : OnlyPc s (s.jump p) ∧ SameMemory s (s.jump p) :=
  ⟨rfl, s.byte_jump p⟩

/-- The 16-bit sum of R101 does not wrap. -/
theorem jumpV0Target_toNat (s : State) (a : Word) :
    (jumpV0Target s a).toNat = a.toNat % 4096 + (s.reg 0).toNat := by
  have hr := (s.reg 0).isLt
  rw [jumpV0Target, BitVec.toNat_add, BitVec.toNat_setWidth, maskAddr_toNat]
  omega

/-- Settles O38: the masked operand plus a byte stays below 2^16. -/
theorem jumpV0AddsRegisterZeroUnmasked : Obligations.JumpV0AddsRegisterZeroUnmasked :=
  fun addr s => ⟨_, rfl, jumpV0Target_toNat s addr, jumpV0Target_toNat_le s addr, s.jump_frame _⟩

/-- Settles O37: the mask is the remainder modulo 4096. -/
theorem jumpSetsTheMaskedTarget : Obligations.JumpSetsTheMaskedTarget :=
  fun addr s => ⟨_, rfl, maskAddr_toNat addr, s.jump_frame _⟩

/-! ### Skips (R104 to R107) -/

theorem State.skipIf_frame (s : State) (p : Bool) :
    OnlyPc s (s.skipIf p) ∧ SameMemory s (s.skipIf p) := by
  rw [State.skipIf_eq]; exact ⟨rfl, fun _ => rfl⟩

/-- What a skip does whose test decides the condition `c`. -/
theorem exists_next_of_skipIf {o : Host.Outcome State Fault Refusal} {p : Bool} {c : Prop}
    [Decidable c] (ho : o = .next (s.skipIf p)) (hp : p = true ↔ c) :
    ∃ t, o = .next t ∧ t.pc = (if c then s.pc + 4#16 else s.pc + 2#16) ∧
      OnlyPc s t ∧ SameMemory s t := by
  refine ⟨_, ho, ?_, s.skipIf_frame p⟩
  have htwice : s.pc + 2#16 + 2#16 = s.pc + 4#16 := BitVec.add_assoc s.pc 2#16 2#16
  simp only [State.skipIf_pc, hp, htwice]

/-- Settles O41: each test decides its condition on x[X] and the byte. -/
theorem skipOnByteMovesPcByTwoOrFour : Obligations.SkipOnByteMovesPcByTwoOrFour :=
  fun _ _ _ => ⟨exists_next_of_skipIf rfl beq_iff_eq, exists_next_of_skipIf rfl bne_iff_ne⟩

/-- Settles O42: each test decides its condition on x[X] and x[Y]. -/
theorem skipOnRegisterMovesPcByTwoOrFour : Obligations.SkipOnRegisterMovesPcByTwoOrFour :=
  fun _ _ _ => ⟨exists_next_of_skipIf rfl beq_iff_eq, exists_next_of_skipIf rfl bne_iff_ne⟩

/-! ### CALL (R102) -/

theorem exec_call_of_lt (h : s.sp.val < 16) (addr : Word) :
    exec (.call addr) s = .next { s with
      stack := s.stack.set s.sp.val (s.pc + 2#16) h, sp := ⟨s.sp.val + 1, by omega⟩,
      pc := maskAddr addr } := by
  simp only [exec, execCall, State.push_of_lt h]; rfl

theorem exec_call_of_full (h : s.sp.val = 16) (addr : Word) :
    exec (.call addr) s =
      .next { s with fault := .stackOverflow, finfo := s.pc + 2#16 } := by
  simp only [exec, execCall, State.push_of_full (Nat.not_lt.2 h.ge), Except.map, settle, State.raise,
    State.npc, BitVec.ofNat_toNat, BitVec.setWidth_eq]

/-- Settles O39: below 16 the push writes one slot; at 16 the push's fault is taken. -/
theorem callPushesTheReturnAddress : Obligations.CallPushesTheReturnAddress := by
  intro addr s
  refine ⟨fun h => ⟨_, exec_call_of_lt h addr, ?_, fun k hk => ?_, rfl, maskAddr_toNat addr, rfl,
    fun _ => rfl⟩, fun h => exec_call_of_full h addr⟩
  · exact Vector.getElem_set_self h
  · exact Vector.getElem_set_ne h k.isLt hk.symm

/-! ### RET (R103) -/

theorem exec_ret_of_pos (h : 0 < s.sp.val) :
    exec .ret s = .next { s with
      sp := ⟨s.sp.val - 1, by omega⟩, pc := s.stack[s.sp.val - 1]'(by omega) } := by
  simp only [exec, execRet, State.pop_of_pos h]; rfl

theorem exec_ret_of_empty (h : s.sp.val = 0) :
    exec .ret s = .next { s with fault := .stackUnderflow, finfo := 0#16 } := by
  simp only [exec, execRet, State.pop_of_empty (Nat.not_lt.2 h.le)]; rfl

/-- Settles O40: above 0 the pop gives the top; at 0 the pop's fault is taken. -/
theorem returnPopsTheTop : Obligations.ReturnPopsTheTop :=
  fun _ => ⟨fun h => ⟨_, exec_ret_of_pos h, rfl, rfl, rfl, rfl, fun _ => rfl⟩, exec_ret_of_empty⟩

/-! ### CALL, then RET -/

/-- Settles O43: the slot CALL wrote, at the old SP, is the one below the SP it left. -/
theorem callThenReturnRestoresPc : Obligations.CallThenReturnRestoresPc := by
  intro addr s h
  have htop : (s.stack.set s.sp.val (s.pc + 2#16) h)[s.sp.val] = s.pc + 2#16 :=
    Vector.getElem_set_self h
  refine ⟨_, exec_call_of_lt h addr, ?_, fun u hsp hstack => ?_⟩
  · rw [State.readTop_of_pos (Nat.succ_pos _)]
    exact congrArg Except.ok htop
  · have hpos : 0 < u.sp.val := by rw [hsp]; exact Nat.succ_pos _
    refine ⟨_, exec_ret_of_pos hpos, ?_, ?_⟩
    · simp only [hsp, hstack]; exact htop
    · simp only [hsp]; rfl

end Sys2Proof.Machine
end

section
/-!
Memory and the index register (42_memory_index.md): the three writes of I, and the two bulk transfers
and the digit store, each by one equation for a range that lies in memory.
-/
namespace Sys2Proof.Machine

variable {s : State} {x : RegIx}

/-! ### The instructions that write I alone (R120 to R122) -/

/-- What an instruction does that sets I to a word of value `n`. -/
theorem exists_next_of_setIndex {o : Host.Outcome State Fault Refusal} {w : Word} {n : Nat}
    (ho : o = .next { s with index := w }.advance) (hw : w.toNat = n) :
    ∃ t, o = .next t ∧ t.index.toNat = n ∧ t.pc = s.pc + 2#16 ∧ OnlyIndexPc s t ∧ SameMemory s t :=
  ⟨_, ho, hw, rfl, rfl, fun _ => rfl⟩

theorem toNat_add_byte (w : Word) (b : Byte) :
    (w + b.setWidth 16).toNat = (w.toNat + b.toNat) % 65536 := by
  rw [BitVec.toNat_add, BitVec.toNat_setWidth_of_le (by decide)]

/-- Five times a byte is at most 1275, so neither the product wraps nor the mask removes a bit. -/
theorem glyphAddr_toNat (v : Byte) : (glyphAddr v).toNat = 5 * v.toNat := by
  have hv := v.isLt
  rw [glyphAddr, maskAddr_toNat, BitVec.toNat_mul, BitVec.toNat_setWidth_of_le (by decide),
    BitVec.toNat_ofNat]
  omega

/-- Settles O44: the mask is the remainder modulo 4096. -/
theorem loadIndexMasksTheAddress : Obligations.LoadIndexMasksTheAddress :=
  fun addr _ => exists_next_of_setIndex rfl (maskAddr_toNat addr)

/-- Settles O45: the sum of words wraps at their width and is not masked. -/
theorem addIndexWrapsAtSixteenBits : Obligations.AddIndexWrapsAtSixteenBits :=
  fun x s => exists_next_of_setIndex rfl (toNat_add_byte s.index (s.reg x))

/-- Settles O46: the mask keeps the whole product. -/
theorem glyphAddressIsFiveTimesTheByte : Obligations.GlyphAddressIsFiveTimesTheByte :=
  fun x s => exists_next_of_setIndex rfl (glyphAddr_toNat (s.reg x))

/-! ### A run of stored bytes, read back (20_memory.md R46, R50) -/

theorem State.byte_storeBytes_inside (hm : s.memCanonical) {a : Nat} {bs : List Byte}
    (ha : a + bs.length ≤ 4096) {k : Nat} (hk : k < bs.length) :
    (s.storeBytes a bs).byte (a + k) = bs[k] := by
  rw [State.byte_storeBytes hm a bs ha, if_pos (Nat.le_add_right a k), Nat.add_sub_cancel_left,
    List.getD_eq_getElem _ _ hk]

theorem State.byte_storeBytes_outside (hm : s.memCanonical) {a : Nat} {bs : List Byte}
    (ha : a + bs.length ≤ 4096) : SameMemoryOutside a bs.length s (s.storeBytes a bs) := by
  intro r hr
  rw [State.byte_storeBytes hm a bs ha]
  split
  · next hle => exact List.getD_eq_default _ _ (by omega)
  · rfl

/-! ### The bulk transfers (R123, R124) -/

theorem bulk_le_memSize (hx : s.index.toNat + x.val ≤ 0xFFF) :
    dataBase s + bulkCount x ≤ 4096 := Nat.succ_le_succ hx

/-- Within memory the advance of I does not wrap. -/
theorem toNat_add_bulkCount {w : Word} (hx : w.toNat + x.val ≤ 0xFFF) :
    (w + BitVec.ofNat 16 (bulkCount x)).toNat = w.toNat + x.val + 1 := by
  rw [BitVec.toNat_add, BitVec.toNat_ofNat, bulkCount]
  omega

theorem exec_storeRegs_of_le (hx : s.index.toNat + x.val ≤ 0xFFF) :
    exec (.storeRegs x) s = .next { s.storeBytes (dataBase s) (bulkValues s x) with
      index := s.index + BitVec.ofNat 16 (bulkCount x), pc := s.pc + 2#16 } :=
  settle_checkRange_of_le (count := bulkCount x) hx _

theorem exec_loadRegs_of_le (hx : s.index.toNat + x.val ≤ 0xFFF) :
    exec (.loadRegs x) s = .next { s with
      regs := bulkLoaded s x (dataBase s),
      index := s.index + BitVec.ofNat 16 (bulkCount x), pc := s.pc + 2#16 } :=
  settle_checkRange_of_le (count := bulkCount x) hx _

/-- Register `r` of a loaded register file: a byte of memory up to register X, else the old value. -/
theorem bulkLoaded_getElem (s : State) (x r : RegIx) (base : Nat) :
    (bulkLoaded s x base)[r] = if r ≤ x then s.byte (base + r.val) else s.reg r := by
  simp [bulkLoaded]

theorem bulkLoaded_getElem_of_le {r : RegIx} (hr : r ≤ x) (base : Nat) :
    (bulkLoaded s x base)[r] = s.byte (base + r.val) := by
  rw [bulkLoaded_getElem, if_pos hr]

theorem bulkLoaded_getElem_of_gt {r : RegIx} (hr : x < r) (base : Nat) :
    (bulkLoaded s x base)[r] = s.reg r := by
  rw [bulkLoaded_getElem, if_neg hr.not_ge]

/-- Settles O47: the bytes stored are the registers' values, and the run of bytes is their number. -/
theorem bulkStoreWritesRegistersToMemory : Obligations.BulkStoreWritesRegistersToMemory := by
  intro x s hm hx
  have hfits := bulk_le_memSize hx
  have hout : SameMemoryOutside (dataBase s) (bulkCount x) s
      (s.storeBytes (dataBase s) (bulkValues s x)) := by
    rw [← bulkValues_length s x] at hfits ⊢
    exact State.byte_storeBytes_outside hm hfits
  exact ⟨_, exec_storeRegs_of_le hx, fun _ => State.byte_storeBytes_bulkValues hm hfits,
    toNat_add_bulkCount hx, rfl, hout, rfl⟩

/-- Settles O48: up to register X the register file is read from memory, above it is kept. -/
theorem bulkLoadReadsRegistersFromMemory : Obligations.BulkLoadReadsRegistersFromMemory :=
  fun _ _ hx => ⟨_, exec_loadRegs_of_le hx, fun _ hr => bulkLoaded_getElem_of_le hr _,
    fun _ hr => bulkLoaded_getElem_of_gt hr _, toNat_add_bulkCount hx, rfl, fun _ => rfl, rfl⟩

/-- Settles O51: the load reads, at the same addresses, the bytes the store put there. -/
theorem bulkStoreThenLoadRoundTrips : Obligations.BulkStoreThenLoadRoundTrips := by
  intro x s hm hx
  refine ⟨_, exec_storeRegs_of_le hx, toNat_add_bulkCount hx, fun u hmem hfont hindex => ?_⟩
  have hbase : dataBase u = dataBase s := congrArg BitVec.toNat hindex
  have hbyte (r : RegIx) (hr : r ≤ x) : u.byte (dataBase u + r.val) = s.reg r := by
    rw [State.byte, hmem, hfont, hbase]
    exact State.byte_storeBytes_bulkValues hm (bulk_le_memSize hx) hr
  rw [← hindex] at hx ⊢
  exact ⟨_, exec_loadRegs_of_le hx,
    fun r hr => (bulkLoaded_getElem_of_le hr _).trans (hbyte r hr), toNat_add_bulkCount hx⟩

/-! ### The decimal digits (R125) -/

theorem exec_ldB_of_le (hi : s.index.toNat + 2 ≤ 0xFFF) (x : RegIx) :
    exec (.ldB x) s = .next { s.storeBytes (dataBase s) (decimalDigits (s.reg x)) with
      pc := s.pc + 2#16 } :=
  settle_checkRange_of_le (count := 3) hi _

@[simp] theorem decimalDigits_length (v : Byte) : (decimalDigits v).length = 3 := rfl

theorem hundredsDigit_toNat (v : Byte) : (decimalDigits v)[0].toNat = v.toNat / 100 :=
  BitVec.toNat_udiv

theorem tensDigit_toNat (v : Byte) : (decimalDigits v)[1].toNat = v.toNat / 10 % 10 :=
  BitVec.toNat_umod.trans (congrArg (· % 10) BitVec.toNat_udiv)

theorem unitsDigit_toNat (v : Byte) : (decimalDigits v)[2].toNat = v.toNat % 10 :=
  BitVec.toNat_umod

/-- Settles O49: the three bytes stored are the digits, in their order. -/
theorem decimalDigitsAreStored : Obligations.DecimalDigitsAreStored := by
  intro x s hm hi
  have hfits : dataBase s + (decimalDigits (s.reg x)).length ≤ 4096 := Nat.succ_le_succ hi
  have hdigit (k : Nat) (hk : k < 3) :
      ((s.storeBytes (dataBase s) (decimalDigits (s.reg x))).byte (dataBase s + k)).toNat =
        (decimalDigits (s.reg x))[k].toNat :=
    congrArg BitVec.toNat (State.byte_storeBytes_inside hm hfits hk)
  exact ⟨_, exec_ldB_of_le hi x, (hdigit 0 (by decide)).trans (hundredsDigit_toNat _),
    (hdigit 1 (by decide)).trans (tensDigit_toNat _),
    (hdigit 2 (by decide)).trans (unitsDigit_toNat _), rfl,
    State.byte_storeBytes_outside hm hfits, rfl⟩

end Sys2Proof.Machine
end

section
/-!
The timers, the random byte and the display (43_timers_random_display.md).
-/
namespace Sys2Proof.Machine

/-! ### The timer moves (R140 to R142) -/

/-- Settles O53: a timer is written by one field update, and x[X] as by a load of the byte DT. -/
theorem timerInstructionsMoveOneByte : Obligations.TimerInstructionsMoveOneByte := fun x s =>
  ⟨rfl, rfl, _, rfl, s.reg_advance_setReg_same x s.dt, s.advance_setReg_frame x s.dt⟩

/-! ### The random byte (R145, R146) -/

/-- A masked byte has no bit outside its mask. -/
theorem and_and_not_self (b kk : Byte) : b &&& kk &&& ~~~kk = 0#8 := by
  rw [BitVec.and_assoc, BitVec.and_not_self]
  exact BitVec.and_zero

/-- Settles O56: the byte written is the draw under the mask, and the count of draws is the only
other thing that RND changes beside what a register write changes. -/
theorem randomByteIsADrawUnderTheMask : Obligations.RandomByteIsADrawUnderTheMask := by
  intro x kk s
  have hreg := s.reg_advance_setReg_same x (Config.rnd8 s.draws &&& kk)
  obtain ⟨hpc, hregs, -, hmem⟩ := s.advance_setReg_frame x (Config.rnd8 s.draws &&& kk)
  exact ⟨_, rfl, hreg, (congrArg (· &&& ~~~kk) hreg).trans (and_and_not_self _ kk), rfl, hpc, hregs,
    hmem, rfl⟩

/-! ### The display (R148) -/

/-- Every cell of a blank display reads zero. -/
theorem readDisp_of_blank {t : State} (ht : t.disp = Display.blank) {k : Nat} (hk : k < 2048) :
    t.readDisp k = .ok 0#8 := by
  rw [State.readDisp, ht]
  exact if_pos hk

/-- Settles O57: CLS makes the display blank. -/
theorem clearScreenZeroesTheDisplay : Obligations.ClearScreenZeroesTheDisplay :=
  fun _ => ⟨_, rfl, fun _ => readDisp_of_blank rfl, rfl, fun _ => rfl, rfl⟩

end Sys2Proof.Machine
end

section
/-!
What every move answers, and the faults (60_exceptions.md sections 1 and 2): a step always answers a
next state (R165 to R167), a fault is precise and has its own cause (R161 to R166), and a latched
one stays until HostReset (R166, R169, R174).
-/
namespace Sys2Proof.Machine

variable {s t : State}

/-! ### Every move answers a next state (R2, R165) -/

/-- An instruction ends in a next state: the five that can fault by `settle`, the others at once. -/
theorem exists_next_of_exec (i : Instr) (s : State) : ∃ t, exec i s = .next t := by
  cases i with
  | call _ | ret | storeRegs _ | loadRegs _ | ldB _ => exact ⟨_, settle_eq s _⟩
  | _ => exact ⟨_, rfl⟩

/-- An enabled dispatcher step: a fault of the fetch or the decode, or the instruction that the
fetched word decodes to (30_encoding.md R66). -/
theorem fetchExecute_cases (s : State) :
    (∃ e, fetchExecute s = .next (s.raise e)) ∨
      ∃ w i, fetch s = .ok w ∧ decodeWord w = .ok i ∧ fetchExecute s = exec i s := by
  cases hf : fetch s with
  | error e => exact .inl ⟨e, fetchExecute_of_fetch_error hf⟩
  | ok w =>
    cases hd : decodeWord w with
    | error e => exact .inl ⟨_, fetchExecute_of_illegal hf hd⟩
    | ok i => exact .inr ⟨w, i, rfl, hd, fetchExecute_of_ok hf hd⟩

theorem exists_next_of_dispatcherStep (s : State) : ∃ t, dispatcherStep s = .next t := by
  cases hr : s.running with
  | false => exact ⟨s, dispatcherStep_of_not_running hr⟩
  | true =>
    rw [dispatcherStep_of_running hr]
    obtain ⟨e, h⟩ | ⟨_, i, -, -, h⟩ := fetchExecute_cases s
    · exact ⟨_, h⟩
    · rw [h]; exact exists_next_of_exec i s

theorem exists_next_of_perform (m : Move) (s : State) : ∃ t, perform m s = .next t := by
  cases m with
  | dispatch => exact exists_next_of_dispatcherStep s
  | _ => exact ⟨_, rfl⟩

/-- The state `after` names is the one the move answers. -/
theorem perform_eq_next_after (m : Move) (s : State) : perform m s = .next (s.after m) := by
  obtain ⟨t, h⟩ := exists_next_of_perform m s
  rw [State.after, h]

/-- Settles O15: a step is a move, and every move answers a next state. -/
theorem stepAlwaysAnswersNextState : Obligations.StepAlwaysAnswersNextState :=
  fun s => exists_next_of_perform s.nextMove s.taken

/-! ### The tick (R176) -/

theorem step_of_tick (h : s.nextMove = .tick) : step s = .next s.taken.tick := by
  rw [step_eq, h]; rfl

/-- Settles O25: the tick lowers each timer on its own. -/
theorem tickDecrementsNonzeroTimers : Obligations.TickDecrementsNonzeroTimers :=
  fun s h => ⟨_, step_of_tick h, timerTick_toNat s.dt, timerTick_toNat s.st, rfl⟩

/-! ### A latched fault (R166, R169, R174) -/

/-- With a fault latched the dispatcher idles and the host's start and writes are turned away. -/
theorem perform_of_fault {m : Move} (hf : s.fault ≠ .none) (hreset : m ≠ .hostReset)
    (htick : m ≠ .tick) : perform m s = .next s := by
  have hstopped : ¬s.stopped = true := State.not_stopped_iff.2 (.inr hf)
  cases m with
  | dispatch => exact dispatcherStep_of_not_running (State.not_running_iff.2 (.inr hf))
  | tick => exact absurd rfl htick
  | hostReset => exact absurd rfl hreset
  | hostStart entry => rw [perform, State.hostStart_of_not_stopped hstopped, State.accept_error]
  | hostWriteMem a b => rw [perform, State.hostWriteMem_of_not_stopped hstopped, State.accept_error]

/-- Settles O13: a tick moves the timers, and every other move but HostReset changes nothing. -/
theorem latchedFaultStaysUntilReset : Obligations.LatchedFaultStaysUntilReset := by
  intro s t hf h hreset
  by_cases htick : s.nextMove = .tick
  · rw [step_of_tick htick] at h
    cases h; exact ⟨rfl, fun hne => absurd htick hne⟩
  · rw [step_eq, perform_of_fault (s := s.taken) hf hreset htick] at h
    cases h; exact ⟨rfl, fun _ => ⟨rfl, rfl⟩⟩

/-! ### Which instruction faults, and why (R161, R162, R164) -/

/-- An instruction behind a range check that leaves a fault failed the check. -/
theorem fault_of_settle_checkRange {count : Nat} {f : Unit → State}
    (h : settle s ((checkRange (dataBase s) count).map f) = .next t) (ht : t.fault ≠ .none)
    (hf : (f ()).fault = .none) :
    0xFFF < dataBase s + (count - 1) ∧
      t = { s with fault := .addressFault, finfo := lowestOffending s } := by
  by_cases hr : dataBase s + (count - 1) ≤ 0xFFF
  · rw [settle_checkRange_of_le hr] at h
    cases h; exact absurd hf ht
  · have hgt := Nat.lt_of_not_le hr
    rw [settle_checkRange_of_gt hgt] at h
    cases h; exact ⟨hgt, rfl⟩

/-- A CALL that leaves a fault met a full stack. -/
theorem fault_of_exec_call {a : Word} (hs : s.fault = .none) (h : exec (.call a) s = .next t)
    (ht : t.fault ≠ .none) :
    s.sp.val = 16 ∧ t = { s with fault := .stackOverflow, finfo := s.pc + 2#16 } := by
  by_cases hl : s.sp.val < 16
  · rw [exec_call_of_lt hl] at h
    cases h; exact absurd hs ht
  · have hfull : s.sp.val = 16 := by omega
    rw [exec_call_of_full hfull] at h
    cases h; exact ⟨hfull, rfl⟩

/-- A RET that leaves a fault met an empty stack. -/
theorem fault_of_exec_ret (hs : s.fault = .none) (h : exec .ret s = .next t)
    (ht : t.fault ≠ .none) :
    s.sp.val = 0 ∧ t = { s with fault := .stackUnderflow, finfo := 0#16 } := by
  by_cases hl : 0 < s.sp.val
  · rw [exec_ret_of_pos hl] at h
    cases h; exact absurd hs ht
  · have hempty : s.sp.val = 0 := by omega
    rw [exec_ret_of_empty hempty] at h
    cases h; exact ⟨hempty, rfl⟩

/-- Settles O14: an instruction that raises none keeps the latch clear; the five that can fault
leave the fault's exact state. -/
theorem faultsArePreciseAndAttributed : Obligations.FaultsArePreciseAndAttributed := by
  intro i s t hs h ht
  obtain ⟨hkept, -⟩ | ⟨hmay, -⟩ := (execEffect_of_exec h).latch_cases
  · exact absurd (hkept.trans hs) ht
  obtain rfl | ⟨a, rfl⟩ | ⟨x, rfl | rfl | rfl⟩ := hmay
  · obtain ⟨hsp, rfl⟩ := fault_of_exec_ret hs h ht
    exact ⟨rfl, .inr (.inl ⟨rfl, rfl, hsp, rfl⟩)⟩
  · obtain ⟨hsp, rfl⟩ := fault_of_exec_call hs h ht
    exact ⟨rfl, .inl ⟨rfl, ⟨a, rfl⟩, hsp, rfl⟩⟩
  · obtain ⟨hr, rfl⟩ := fault_of_settle_checkRange h ht hs
    exact ⟨rfl, .inr (.inr ⟨rfl, rfl, .inl ⟨x, .inl rfl, hr⟩⟩)⟩
  · obtain ⟨hr, rfl⟩ := fault_of_settle_checkRange h ht hs
    exact ⟨rfl, .inr (.inr ⟨rfl, rfl, .inl ⟨x, .inr rfl, hr⟩⟩)⟩
  · obtain ⟨hr, rfl⟩ := fault_of_settle_checkRange h ht hs
    exact ⟨rfl, .inr (.inr ⟨rfl, rfl, .inr ⟨⟨x, rfl⟩, hr⟩⟩)⟩

end Sys2Proof.Machine
end

section
/-!
The wait for the delay timer (60_exceptions.md section 5, R176, R177): no move raises DT but an
LD DT, Vx, and only a tick or HostReset changes it otherwise.
-/
namespace Sys2Proof.Machine

variable {s : State} {m : Move} {σ : Schedule}

/-- A dispatcher step from `s`, where one is enabled, does not execute an LD DT, Vx. -/
def NoDelayLoad (s : State) : Prop :=
  ∀ x w, s.running = true → fetch s = .ok w → decodeWord w ≠ .ok (.ldDtVx x)

/-! ### What one move does to DT -/

theorem after_of_perform {t : State} (h : perform m s = .next t) : s.after m = t := by
  rw [perform_eq_next_after] at h
  cases h; rfl

theorem after_dispatch_dt (hno : NoDelayLoad s) : (s.after .dispatch).dt = s.dt := by
  cases hr : s.running with
  | false => rw [after_of_perform (m := .dispatch) (dispatcherStep_of_not_running hr)]
  | true =>
    have hstep : perform .dispatch s = fetchExecute s := dispatcherStep_of_running hr
    obtain ⟨e, h⟩ | ⟨w, i, hw, hi, h⟩ := fetchExecute_cases s
    · rw [after_of_perform (hstep.trans h)]; rfl
    · have hexec : exec i s = .next (s.after .dispatch) := by
        rw [← h, ← hstep, perform_eq_next_after]
      exact (execEffect_of_exec hexec).dt_eq fun x hx => hno x w hr hw (hx ▸ hi)

theorem after_hostStart_dt (entry : Word) : (s.after (.hostStart entry)).dt = s.dt := by
  show (s.accept (s.hostStart entry)).dt = s.dt
  by_cases h : s.stopped = true
  · rw [State.hostStart_of_stopped h]; rfl
  · rw [State.hostStart_of_not_stopped h]; rfl

theorem after_hostWriteMem_dt (a : Word) (b : Byte) : (s.after (.hostWriteMem a b)).dt = s.dt := by
  show (s.accept (s.hostWriteMem a b)).dt = s.dt
  by_cases h : s.stopped = true
  · by_cases ha : a.toNat ≤ 0xFFF
    · rw [State.hostWriteMem_of_le h ha]; rfl
    · rw [State.hostWriteMem_of_gt h (Nat.lt_of_not_le ha)]; rfl
  · rw [State.hostWriteMem_of_not_stopped h]; rfl

/-- A move that is neither a tick nor HostReset leaves DT as it is. -/
theorem after_dt (hno : m = .dispatch → NoDelayLoad s) (htick : m ≠ .tick)
    (hreset : m ≠ .hostReset) : (s.after m).dt = s.dt := by
  cases m with
  | dispatch => exact after_dispatch_dt (hno rfl)
  | tick => exact absurd rfl htick
  | hostReset => exact absurd rfl hreset
  | hostStart entry => exact after_hostStart_dt entry
  | hostWriteMem a b => exact after_hostWriteMem_dt a b

theorem after_tick_dt_toNat (s : State) : (s.after .tick).dt.toNat = s.dt.toNat - 1 := timerTick_toNat s.dt

/-- No move raises DT. -/
theorem after_dt_toNat_le (hno : m = .dispatch → NoDelayLoad s) :
    (s.after m).dt.toNat ≤ s.dt.toNat := by
  by_cases htick : m = .tick
  · rw [htick, after_tick_dt_toNat]; exact Nat.sub_le _ 1
  by_cases hreset : m = .hostReset
  · rw [hreset]; exact Nat.zero_le _
  · rw [after_dt hno htick hreset]

/-! ### DT along a run -/

/-- Along a run DT never rises. -/
theorem runUnder_dt_antitone (hno : ∀ n, σ n = .dispatch → NoDelayLoad (runUnder σ n s)) :
    Antitone fun n => (runUnder σ n s).dt.toNat :=
  antitone_nat_of_succ_le fun n => after_dt_toNat_le (hno n)

/-- Under a fair schedule DT comes down by any number of units, to zero at the latest: from each
moment on a tick is still to come. -/
theorem exists_runUnder_dt_toNat_le (hno : ∀ n, σ n = .dispatch → NoDelayLoad (runUnder σ n s))
    (hfair : Fair σ) (j : Nat) : ∃ n, (runUnder σ n s).dt.toNat ≤ s.dt.toNat - j := by
  induction j with
  | zero => exact ⟨0, Nat.le_refl _⟩
  | succ j ih =>
    obtain ⟨n, hn⟩ := ih
    obtain ⟨k, hnk, hk⟩ := hfair n
    refine ⟨k + 1, ?_⟩
    calc (runUnder σ (k + 1) s).dt.toNat
        = (runUnder σ k s).dt.toNat - 1 := by rw [runUnder, hk, after_tick_dt_toNat]
      _ ≤ (runUnder σ n s).dt.toNat - 1 := Nat.sub_le_sub_right (runUnder_dt_antitone hno hnk) 1
      _ ≤ s.dt.toNat - j - 1 := Nat.sub_le_sub_right hn 1

/-- Under a schedule without ticks and HostReset DT stands still. -/
theorem runUnder_dt (hno : ∀ n, σ n = .dispatch → NoDelayLoad (runUnder σ n s))
    (h : ∀ n, σ n ≠ .tick ∧ σ n ≠ .hostReset) (n : Nat) : (runUnder σ n s).dt = s.dt := by
  induction n with
  | zero => rfl
  | succ n ih =>
    obtain ⟨htick, hreset⟩ := h n
    exact (after_dt (hno n) htick hreset).trans ih

/-- Settles O60: DT comes down by its whole value, or stands still. -/
theorem fairTicksRunTheDelayTimerOut : Obligations.FairTicksRunTheDelayTimerOut := by
  intro σ s h
  have hno : ∀ n, σ n = .dispatch → NoDelayLoad (runUnder σ n s) := fun n hd x w => h n x w hd
  refine ⟨fun hfair => ?_, runUnder_dt hno⟩
  obtain ⟨n, hn⟩ := exists_runUnder_dt_toNat_le hno hfair s.dt.toNat
  rw [Nat.sub_self] at hn
  exact ⟨n, BitVec.eq_of_toNat_eq (Nat.le_zero.1 hn)⟩

end Sys2Proof.Machine
end

section
/-!
The words of the spec's encoding examples (30_encoding.md section 7).
-/
namespace Sys2Proof

/-- A word is decoded by naming the instruction it is the word of. -/
theorem decodeWord_of_encode_eq {w : Word} {i : Instr} (hi : i.wellFormed = true)
    (hw : encode i = w) : decodeWord w = .ok i :=
  hw ▸ decodeWord_encode hi

/-- Settles O6: each word but the last is the encoder's word of a well-formed instruction, and the
decoder refuses the last, whose low nibble is not the 0 of opcode 5. -/
theorem sampleWordsDecodeAsTheSpecSays : Obligations.SampleWordsDecodeAsTheSpecSays := by
  refine ⟨?_, ?_, ?_, ?_, ?_, ?_, ?_, ?_, ?_, ?_, ?_, ?illegal⟩
  case illegal => rfl
  all_goals exact decodeWord_of_encode_eq rfl rfl

end Sys2Proof
end
